-- ==== Sys2Proof/Word.lean ====
section
/-! DEFINITION. The machine's one data type, the 15-bit word, and its two zeros (spec/10_state.md R21,
spec/00_scope.md R10). -/

namespace Sys2Proof

/-- A 15-bit 1's-complement word, the machine's native data unit (R12, R21); bit 14 is the sign (R8). -/
abbrev Word := BitVec 15

/-- The opcode field of an instruction word, bits 14..12 (R100). -/
abbrev Opcode := BitVec 3

/-- The address field of an instruction word, bits 11..0 (R100). -/
abbrev AddrField := BitVec 12

/-- +0, the word `0o00000` (R10). -/
abbrev Word.plusZero : Word := 0o00000#15

/-- -0, the word `0o77777` (R10). -/
abbrev Word.minusZero : Word := 0o77777#15

end Sys2Proof
end

