-- ==== Sys2Proof/Syntax.lean ====
section
/-! DEFINITION. The instructions: one constructor per row of spec/opcode_table.json (spec/30_encoding.md R103). -/

namespace Sys2Proof

/-- An instruction of the subset. Each carries the 12-bit address field, its only operand field (R102). The field's
type admits exactly the legal values 0..0o7777 (R105), so no ill-formed instruction can be built; the check on an
unchecked pair of numbers is `RawInstr.wellFormed`. -/
inductive Instr where
  /-- TC, Transfer Control, opcode 0 (R160). -/
  | tc (addr : AddrField)
  /-- XCH, Exchange, opcode 1 (R170). -/
  | xch (addr : AddrField)
  /-- TS, Transfer to Storage, opcode 2 (R171). -/
  | ts (addr : AddrField)
  /-- CA, Clear and Add, opcode 3 (R172). -/
  | ca (addr : AddrField)
  /-- CCS, Count/Compare/Skip, opcode 4 (R191). -/
  | ccs (addr : AddrField)
  /-- INDEX, Index, opcode 5 (R200). -/
  | index (addr : AddrField)
  /-- Opcode 6, unassigned: a no-op whose field is ignored (R147). -/
  | op6 (addr : AddrField)
  /-- Opcode 7, unassigned: a no-op whose field is ignored (R148). -/
  | op7 (addr : AddrField)
  deriving DecidableEq, Repr

/-- The opcode of an instruction, by the opcode map (R103). -/
def Instr.opcode : Instr → Opcode
  | .tc _ => 0
  | .xch _ => 1
  | .ts _ => 2
  | .ca _ => 3
  | .ccs _ => 4
  | .index _ => 5
  | .op6 _ => 6
  | .op7 _ => 7

/-- The address field of an instruction (R101). -/
def Instr.addr : Instr → AddrField
  | .tc a => a
  | .xch a => a
  | .ts a => a
  | .ca a => a
  | .ccs a => a
  | .index a => a
  | .op6 a => a
  | .op7 a => a

end Sys2Proof
end

