-- ==== Sys2Proof/WellFormed.lean ====
section
/-! DEFINITION. Well-formedness of an instruction: its two fields lie in the ranges of the format I15
(spec/30_encoding.md R100, R101, R105, R107). -/

namespace Sys2Proof

/-- An instruction as two unchecked numbers, as an assembler line gives them (R107). -/
structure RawInstr where
  /-- The opcode, to be checked. -/
  op : Nat
  /-- The address, to be checked. -/
  addr : Nat
  deriving DecidableEq, Repr

/-- The opcode fits its 3 bits, values 0..7 (R100). -/
def RawInstr.opFits (r : RawInstr) : Bool :=
  decide (r.op ≤ 7)

/-- The address fits its 12 bits, "an octal number 0..7777" (R100, R107). -/
def RawInstr.addrFits (r : RawInstr) : Bool :=
  decide (r.addr ≤ 0o7777)

/-- Both fields fit. Nothing else can be wrong: no bit of the format is reserved and every field value is legal
(R105). -/
def RawInstr.wellFormed (r : RawInstr) : Bool :=
  r.opFits && r.addrFits

/-- The two numbers of an instruction. -/
def Instr.raw (i : Instr) : RawInstr :=
  { op := i.opcode.toNat, addr := i.addr.toNat }

/-- An instruction is well formed if its two numbers are. Every `Instr` is, because its fields have the widths of
R100. -/
def Instr.wellFormed (i : Instr) : Bool :=
  i.raw.wellFormed

end Sys2Proof
end

