-- ==== Sys2Proof/Decode.lean ====
section
/-! DEFINITION. Decoding and encoding of instruction words (spec/30_encoding.md R100 to R107). -/

namespace Sys2Proof

/-- `op = w[14:12]` (R101, R145). -/
def opField (w : Word) : Opcode :=
  w.extractLsb' 12 3

/-- `addr = w[11:0]` (R101, R145). -/
def addrField (w : Word) : AddrField :=
  w.extractLsb' 0 12

/-- The instruction an opcode and an address field name (the opcode map, R103). It has an entry for each of the eight
opcodes, the two unassigned ones among them (R104). -/
def instrOf (op : Opcode) (a : AddrField) : Instr :=
  match op.toFin with
  | 0 => .tc a
  | 1 => .xch a
  | 2 => .ts a
  | 3 => .ca a
  | 4 => .ccs a
  | 5 => .index a
  | 6 => .op6 a
  | 7 => .op7 a

/-- The decoder. It is total: every one of the 2^15 words decodes (R105). -/
def decode (w : Word) : Instr :=
  instrOf (opField w) (addrField w)

/-- The word of an instruction, `oooaaaaaaaaaaaa` with the opcode in bits 14..12 (R100). -/
def encode (i : Instr) : Word :=
  i.opcode ++ i.addr

/-- The assembler's encoding `(op << 12) | addr` of a line whose fields fit, and no word for any other (R107). -/
def assemble (r : RawInstr) : Option Word :=
  if r.wellFormed then some (BitVec.ofNat 15 ((r.op <<< 12) ||| r.addr)) else none

/-- A word of the one external byte format, the ROM image: high byte first, masked to the low 15 bits, so that bit 7 of
the high byte is discarded (R81). -/
def imageWord (hi lo : BitVec 8) : Word :=
  (hi ++ lo).setWidth 15

/-- The two bytes of a word in the ROM image format, high byte first (R81). -/
def imageBytes (w : Word) : List (BitVec 8) :=
  [(w.setWidth 16).extractLsb' 8 8, (w.setWidth 16).extractLsb' 0 8]

/-- Why a byte sequence holds no instruction. -/
inductive DecodeReject where
  /-- Raised by `decodeBytes` on fewer than two bytes, which hold no whole word; the loader discards an odd final byte
  for the same reason (R80). Safe: no step of the machine reads bytes. -/
  | truncated
  deriving DecidableEq, Repr

/-- The instruction at the head of a byte sequence in the ROM image format, with the bytes after it. Total on any bytes;
the only rejection is `truncated`. (DESIGN CHOICE, log 25: the CORE's memory has no bytes, R75, so this form exists for
images and for `decodeTableWord` only.) -/
def decodeBytes : List (BitVec 8) → Except DecodeReject (Instr × List (BitVec 8))
  | hi :: lo :: rest => .ok (decode (imageWord hi lo), rest)
  | [_] => .error .truncated
  | [] => .error .truncated

/-- The bytes of an instruction in the ROM image format. -/
def encodeBytes (i : Instr) : List (BitVec 8) :=
  imageBytes (encode i)

/-- The low `nbits` bits of `w`, as the opcode table numbers an instruction's bits, in one 16-bit container. -/
def tableContainer (nbits w : Nat) : BitVec 16 :=
  BitVec.ofNat 16 (w % 2 ^ nbits)

/-- The instruction the decoder reads from an instruction whose bits are `w`, laid out as the hardware's one byte format
lays it out. -/
def decodeTableWord (nbits w : Nat) : Option Instr :=
  match decodeBytes [(tableContainer nbits w).extractLsb' 8 8, (tableContainer nbits w).extractLsb' 0 8] with
  | .ok (i, _) => some i
  | .error _ => none

/-- The 15-bit word that `decodeTableWord` decodes: what the hardware stores of `w` (R78, R81: `v[14:0]`). -/
def tableWord (nbits w : Nat) : Word :=
  BitVec.ofNat 15 (w % 2 ^ nbits)

end Sys2Proof
end

