-- ==== Sys2Proof/Machine/Alu.lean ====
section
/-! DEFINITION. The word-arithmetic unit: normalize, negate and add with end-around carry, as pure functions
(spec/40_word_arithmetic.md R120 to R125). The fourth operation, the sign test, is in Machine/Flags.lean. -/

namespace Sys2Proof.Machine

/-- `normalize(w)`: mask a value of any width to 15 bits (R122). -/
def aluNormalize (w : Nat) : Word :=
  BitVec.ofNat 15 w

/-- `negate(w)`: bitwise complement, then aluNormalize (R124). -/
def aluNegate (w : Word) : Word :=
  aluNormalize (~~~w).toNat

/-- `add(a, b)`: sum in a wider integer, take the carry out of bit 14, add it back into the low-order result, normalizing
twice (R125). The second normalization never changes the value (spec/90_conflicts.md C4) and is kept as the rule writes
it. -/
def aluAdd (a b : Word) : Word :=
  let s := a.toNat + b.toNat
  let c := s / 2 ^ 15
  let r1 := aluNormalize s
  aluNormalize (r1.toNat + c)

/-- `val(w)`, the 1's-complement integer a word stands for (R121). -/
def val (w : Word) : Int :=
  if w.getLsbD 14 then (w.toNat : Int) - 0o77777 else w.toNat

end Sys2Proof.Machine
end

