-- ==== Sys2Proof/Config.lean ====
section
/-! DEFINITION. The implementation parameters of spec/00_scope.md R5 that are plain numbers.

The parameters that are maps (FB_BANK_MAP, CHANNEL_SLOT_MAP) are `Machine.fbBank` and `Machine.slotChannel` in
Machine/Operands.lean; CYCLE_COUNTER is the type `Nat` of the field `cycles` (log 18). The spec leaves no
result undefined, so there is no free value here. -/

namespace Sys2Proof.Config

/-- ERASABLE_BANKS (R5). -/
abbrev erasableBanks : Nat := 2

/-- FIXED_BANKS (R5). -/
abbrev fixedBanks : Nat := 36

/-- BANK_WORDS, for erasable and fixed banks alike (R5). -/
abbrev bankWords : Nat := 1024

/-- The size of the erasable array, `erasable[0..1][0..1023]` (R36). -/
abbrev erasableWords : Nat := 2048

/-- The size of the flat fixed array, `fixed[0..36863]` (R36, R67). -/
abbrev fixedWords : Nat := 36864

/-- FIXED_MAX_BANK (R5). -/
abbrev fixedMaxBank : Nat := 35

/-- REG_FILE_WORDS (R5). -/
abbrev regFileWords : Nat := 16

/-- IN_CHANNELS and OUT_CHANNELS (R5). -/
abbrev channels : Nat := 16

/-- CHANNEL_SLOTS (R5). -/
abbrev channelSlots : Nat := 8

/-- The highest register-file address (R62). -/
abbrev regFileLimit : Nat := 0o17

/-- The highest erasable address (R62). -/
abbrev erasableLimit : Nat := 0o1777

/-- The highest fixed-fixed address (R62). -/
abbrev fixedFixedLimit : Nat := 0o3777

/-- DECODED_LIMIT, the highest decoded address (R5, R62). -/
abbrev decodedLimit : Nat := 0o7777

end Sys2Proof.Config
end

