-- ==== Sys2Proof/Machine/State.lean ====
section
/-! DEFINITION. The state of the CORE (spec/10_state.md R20 to R36), its state right after reset, and the reasons a step
could stop (there are none, spec/41_step_and_dispatch.md R150). -/

namespace Sys2Proof.Machine

/-- One listed memory cell: its index in its array, and its word. The cells hold words, not bytes, because the CORE's
memory has no bytes (R61, R75). (DESIGN CHOICE, log 1.) -/
abbrev Cell := Nat × Word

/-- A memory array as the list of its cells that do not hold +0, in rising order of index (`Memory.wf`,
Machine/Ops.lean). (DESIGN CHOICE, log 1.) -/
abbrev Memory := List Cell

/-- The state of the CORE. "The CORE's state consists of exactly the following. No other state exists" (R20). -/
structure State where
  /-- Accumulator (R22). -/
  A : Word
  /-- Link (R23). -/
  L : Word
  /-- Overflow/auxiliary; despite the name it records no overflow (R24). -/
  Q : Word
  /-- Erasable-bank register (R25). -/
  EB : Word
  /-- Fixed-bank register (R26). -/
  FB : Word
  /-- Program counter (R27). -/
  Z : Word
  /-- "Both-bank" register: plain storage (R28; log 17). -/
  BB : Word
  /-- Input channels `in[0..15]` (R29, R33). -/
  inp : Vector Word 16
  /-- Output channels `out[0..15]` (R29, R33). -/
  out : Vector Word 16
  /-- Last-fetched instruction word (R34). -/
  IR : Word
  /-- Cycle counter, which never wraps (R35; log 18). -/
  cycles : Nat
  /-- Erasable memory; bank b, offset off is index `1024 * b + off` (R36). -/
  erasable : Memory
  /-- Fixed memory, one flat array (R36, R67; log 9). -/
  fixed : Memory
  deriving DecidableEq, Repr

/-- The reasons a step could stop with a fault. There are none, so the type has no constructor: "A step never fails,
blocks or leaves a partial effect" (R140), and the CORE raises no exception (R220). (DEDUCED, log 26.) -/
inductive Fault where
  deriving DecidableEq, Repr

/-- The reasons an instruction could be refused. -/
inductive Refusal where
  /-- Raised only by an arm of `exec` whose instruction has no meaning yet; no arm is left so. Safe. -/
  | notModelled (mnemonic : String)
  deriving DecidableEq, Repr

/-- The machine right after power-on and reset: every register, channel and counter is 0, and so is every memory cell
(R38, R250). The host's `reset()`, which keeps memory, is `hostReset` (Machine/HostPort.lean; log 3). -/
def State.reset : State where
  A := 0
  L := 0
  Q := 0
  EB := 0
  FB := 0
  Z := 0
  BB := 0
  inp := Vector.replicate 16 0
  out := Vector.replicate 16 0
  IR := 0
  cycles := 0
  erasable := []
  fixed := []

end Sys2Proof.Machine
end

