-- ==== Sys2Proof/Machine/Ops.lean ====
section
/-! DEFINITION. The named operations over one memory array and over the state: cell read and write, the canonical form, one
setter per field, and the step's own phases around a handler.

There is no operation that takes an exception and none that returns from one: the CORE has no trap entry, trap return,
interrupt or restart (spec/60_exceptions.md R220 to R225). -/

namespace Sys2Proof.Machine

/-! ## One memory array -/

/-- What an unlisted cell reads as: +0, the contents of every cell at power-on (R38, R250; the spec's decision D14,
DESIGN CHOICE, log 2). -/
abbrev unlistedWord : Word :=
  Word.plusZero

/-- The word of the cell with index `i`. -/
def Memory.read : Memory → Nat → Word
  | [], _ => unlistedWord
  | (k, w) :: m, i => if k = i then w else Memory.read m i

/-- Store `v` in the cell with index `i`, keeping the canonical form: a cell that takes the unlisted value is removed from
the list. -/
def Memory.write : Memory → Nat → Word → Memory
  | [], i, v => if v = unlistedWord then [] else [(i, v)]
  | (k, w) :: m, i, v =>
    if i < k then if v = unlistedWord then (k, w) :: m else (i, v) :: (k, w) :: m
    else if i = k then if v = unlistedWord then m else (i, v) :: m
    else (k, w) :: Memory.write m i v

/-- The canonical form from index `lo` on: indices strictly rising, from `lo` and below `size`, and no cell listed with the
unlisted value. -/
def Memory.wfFrom (size : Nat) : Nat → Memory → Bool
  | _, [] => true
  | lo, (k, w) :: m => decide (lo ≤ k) && decide (k < size) && decide (w ≠ unlistedWord) && Memory.wfFrom size (k + 1) m

/-- The canonical form of an array of `size` cells, in which equal contents are equal lists. -/
def Memory.wf (size : Nat) (m : Memory) : Bool :=
  Memory.wfFrom size 0 m

/-! ## Setters: the one home of each field's update -/

/-- `A <- v`. -/
def State.setA (s : State) (v : Word) : State := { s with A := v }

/-- `L <- v`. -/
def State.setL (s : State) (v : Word) : State := { s with L := v }

/-- `Q <- v`. -/
def State.setQ (s : State) (v : Word) : State := { s with Q := v }

/-- `EB <- v`. -/
def State.setEB (s : State) (v : Word) : State := { s with EB := v }

/-- `FB <- v`. -/
def State.setFB (s : State) (v : Word) : State := { s with FB := v }

/-- `Z <- v`. -/
def State.setZ (s : State) (v : Word) : State := { s with Z := v }

/-- `BB <- v`. -/
def State.setBB (s : State) (v : Word) : State := { s with BB := v }

/-- `in[k] <- v`. -/
def State.setInp (s : State) (k : Fin 16) (v : Word) : State := { s with inp := s.inp.set k v }

/-- `out[k] <- v`. -/
def State.setOut (s : State) (k : Fin 16) (v : Word) : State := { s with out := s.out.set k v }

/-- `IR <- v`. -/
def State.setIR (s : State) (v : Word) : State := { s with IR := v }

/-- `cycles <- n`. -/
def State.setCycles (s : State) (n : Nat) : State := { s with cycles := n }

/-- Replace the erasable array. -/
def State.setErasableMem (s : State) (m : Memory) : State := { s with erasable := m }

/-- Replace the fixed array. -/
def State.setFixedMem (s : State) (m : Memory) : State := { s with fixed := m }

/-! ## The two arrays -/

/-- The index of `erasable[b][off]` in the erasable array. -/
def erasableIndex (b : Fin 2) (off : Fin 1024) : Nat :=
  Config.bankWords * b.val + off.val

/-- The index of bank `b`, offset `off` in the flat fixed array: `1024 * b + off` (R67; the spec's decision D5, DESIGN
CHOICE, log 9). -/
def fixedIndex (b : Fin 36) (off : Fin 1024) : Fin 36864 :=
  ⟨Config.bankWords * b.val + off.val, by have := b.isLt; have := off.isLt; simp only [Config.bankWords]; omega⟩

/-- The word `erasable[b][off]`. -/
def State.readErasable (s : State) (b : Fin 2) (off : Fin 1024) : Word :=
  s.erasable.read (erasableIndex b off)

/-- `erasable[b][off] <- v`. -/
def State.writeErasable (s : State) (b : Fin 2) (off : Fin 1024) (v : Word) : State :=
  s.setErasableMem (s.erasable.write (erasableIndex b off) v)

/-- The word `fixed[i]`. -/
def State.readFixed (s : State) (i : Fin 36864) : Word :=
  s.fixed.read i.val

/-- `fixed[i] <- v`; only the host's ports and the loader use it (R36). -/
def State.writeFixed (s : State) (i : Fin 36864) (v : Word) : State :=
  s.setFixedMem (s.fixed.write i.val v)

/-! ## The step's phases around a handler -/

/-- RECORD: `IR <- w`, before the handler runs (R143). -/
def recordPhase (w : Word) (s : State) : State :=
  s.setIR w

/-- INCR: `Z <- normalize(Z + 1)`, before dispatch (R144): plain binary, modulo 2^15 (the spec's decision D7, DESIGN
CHOICE, log 11). -/
def incrPhase (s : State) : State :=
  s.setZ (aluNormalize (s.Z.toNat + 1))

/-- COUNT: `cycles <- cycles + 1`, at the end of the step (R149). -/
def countPhase (s : State) : State :=
  s.setCycles (s.cycles + 1)

end Sys2Proof.Machine
end

