-- ==== Sys2Proof/Machine/Operands.lean ====
section
/-! DEFINITION. The address decoder and the three entry points of the unified address space: data read, data write and
instruction fetch (spec/20_memory.md R60 to R71); the register file (spec/10_state.md R29 to R32). Direct addressing is
the only operand form: the effective address is the zero-extended address field (spec/30_encoding.md R102). -/

namespace Sys2Proof.Machine

/-- What an address reaches (R63). -/
inductive Target where
  /-- The register file, offset o. -/
  | reg (o : Fin 16)
  /-- The cell `erasable[b][off]`. -/
  | erasable (b : Fin 2) (off : Fin 1024)
  /-- The cell `fixed[i]`. -/
  | fixed (i : Fin 36864)
  /-- Nothing: the address is above 0o7777 (R68). -/
  | nothing
  deriving DecidableEq, Repr

/-! ## The register file -/

/-- CHANNEL_SLOT_MAP: slot k is channel k, the input channel for a read and the output channel for a register write (R5,
R29; the spec's decision D10, DESIGN CHOICE, log 14). -/
def slotChannel (k : Fin 8) : Fin 16 :=
  ⟨k.val, by omega⟩

/-- `reg(o)`, the register-file read (R31). It has no side effect; the last arm is offset 15, which is
unmapped and reads +0 (R30). -/
def regRead (s : State) (o : Fin 16) : Word :=
  match o.val with
  | 0 => s.A
  | 1 => s.L
  | 2 => s.Q
  | 3 => s.EB
  | 4 => s.FB
  | 5 => s.Z
  | 6 => s.BB
  | 7 => s.inp[slotChannel 0]
  | 8 => s.inp[slotChannel 1]
  | 9 => s.inp[slotChannel 2]
  | 10 => s.inp[slotChannel 3]
  | 11 => s.inp[slotChannel 4]
  | 12 => s.inp[slotChannel 5]
  | 13 => s.inp[slotChannel 6]
  | 14 => s.inp[slotChannel 7]
  | _ => Word.plusZero

/-- `regWrite(o, w)`, the dedicated register-write operation, with `w` already masked to 15 bits; the last arm is
offset 15, which is ignored (R30, R32). No instruction reaches it; it is a port of the host (the spec's decision D11,
DESIGN CHOICE, log 15). -/
def regWrite (s : State) (o : Fin 16) (w : Word) : State :=
  match o.val with
  | 0 => s.setA w
  | 1 => s.setL w
  | 2 => s.setQ w
  | 3 => s.setEB w
  | 4 => s.setFB w
  | 5 => s.setZ w
  | 6 => s.setBB w
  | 7 => s.setOut (slotChannel 0) w
  | 8 => s.setOut (slotChannel 1) w
  | 9 => s.setOut (slotChannel 2) w
  | 10 => s.setOut (slotChannel 3) w
  | 11 => s.setOut (slotChannel 4) w
  | 12 => s.setOut (slotChannel 5) w
  | 13 => s.setOut (slotChannel 6) w
  | 14 => s.setOut (slotChannel 7) w
  | _ => s

/-! ## Address decode -/

/-- The bank a bit of EB selects. -/
def bankOfBit (b : Bool) : Fin 2 :=
  if b then 1 else 0

/-- `ebank(addr)`: EB[0] for the lower half, EB[1] for the upper, split on address bit 9 (R64; the split is the spec's
decision D1, DESIGN CHOICE, log 5). -/
def ebank (eb : Word) (addr : Nat) : Fin 2 :=
  if addr.testBit 9 then bankOfBit (eb.getLsbD 1) else bankOfBit (eb.getLsbD 0)

/-- `addr[9:0]`: the offset in an erasable bank (R64; D1, log 5) and in the switched fixed bank (R66; D4, log 8). -/
def lowTenBits (addr : Nat) : Fin 1024 :=
  Fin.ofNat 1024 addr

/-- `addr[8:0]`: the offset in a fixed-fixed bank (R65; D2, log 6). -/
def lowNineBits (addr : Nat) : Fin 1024 :=
  ⟨addr % 512, by omega⟩

/-- The fixed-fixed bank, `addr[9]`: bank 0 for 0o2000..0o2777, bank 1 for 0o3000..0o3777 (R63, R65; the sub-range
boundary is the spec's decision D2, DESIGN CHOICE, log 6). -/
def fixedFixedBank (addr : Nat) : Fin 36 :=
  if addr.testBit 9 then 1 else 0

/-- FB_BANK_MAP: `min(FB, 35)`, FB read as an unsigned number (R5, R66; the spec's decision D3, DESIGN CHOICE, log 7). -/
def fbBank (fb : Word) : Fin 36 :=
  ⟨min fb.toNat Config.fixedMaxBank, by simp only [Config.fixedMaxBank]; omega⟩

/-- The erasable cell an address of the erasable region reaches (R64). -/
def erasableTarget (s : State) (addr : Nat) : Target :=
  .erasable (ebank s.EB addr) (lowTenBits addr)

/-- `resolve(addr)`, the data-path decode (R63). The address is any natural number: the bits of a host address above bit
14 are not masked (R60). -/
def resolve (s : State) (addr : Nat) : Target :=
  if addr ≤ Config.regFileLimit then .reg (Fin.ofNat 16 addr)
  else if addr ≤ Config.erasableLimit then erasableTarget s addr
  else if addr ≤ Config.fixedFixedLimit then .fixed (fixedIndex (fixedFixedBank addr) (lowNineBits addr))
  else if addr ≤ Config.decodedLimit then .fixed (fixedIndex (fbBank s.FB) (lowTenBits addr))
  else .nothing

/-- The fetch-path decode: erasable for every address up to 0o1777, the register file's range among them, and as the data
path from 0o2000 up (R71; outside the erasable range it is the spec's decision D6, DESIGN CHOICE, log 10). -/
def fetchResolve (s : State) (addr : Nat) : Target :=
  if addr ≤ Config.erasableLimit then erasableTarget s addr else resolve s addr

/-! ## The three entry points -/

/-- The word a target holds; nothing reads as +0 (R68, R69). -/
def readTarget (s : State) : Target → Word
  | .reg o => regRead s o
  | .erasable b off => s.readErasable b off
  | .fixed i => s.readFixed i
  | .nothing => Word.plusZero

/-- `MemRead(addr, 1)`, the unified data read (R69). It is a function of the state and writes none of it (R72). -/
def memRead (s : State) (addr : Nat) : Word :=
  readTarget s (resolve s addr)

/-- `MemWrite(addr, 1, v)`, the unified data write (R70): only an erasable cell changes; a write to the register range, to
fixed memory or to nothing is dropped. -/
def memWrite (s : State) (addr : Nat) (v : Word) : State :=
  match resolve s addr with
  | .erasable b off => s.writeErasable b off v
  | .reg _ => s
  | .fixed _ => s
  | .nothing => s

/-- `Fetch(addr)`, used only by the step loop; it never returns a register value (R71). -/
def fetch (s : State) (addr : Nat) : Word :=
  readTarget s (fetchResolve s addr)

/-! ## Placing a word where the next step fetches -/

/-- Store a word in the cell a target names, as the host's `setErasable` and `setFixed` do, bypassing the write
protection (R78). -/
def pokeTarget (s : State) (t : Target) (w : Word) : State :=
  match t with
  | .erasable b off => s.writeErasable b off w
  | .fixed i => s.writeFixed i w
  | .reg _ => s
  | .nothing => s

/-- `s` with Z at an address that a fetch reads a cell for: Z itself, or 0 where Z is above 0o7777, where no cell
exists (log 4). -/
def withFetchableZ (s : State) : State :=
  if s.Z.toNat ≤ Config.decodedLimit then s else s.setZ 0

/-- `s` with the word `w` stored where the next step fetches it (log 4). -/
def placeAtFetch (s : State) (w : Word) : State :=
  pokeTarget (withFetchableZ s) (fetchResolve (withFetchableZ s) (withFetchableZ s).Z.toNat) w

end Sys2Proof.Machine
end

