-- ==== Sys2Proof/Machine/ControlTransfer.lean ====
section
/-! DEFINITION. The control-transfer family: TC (spec/42_control_transfer.md). -/

namespace Sys2Proof.Machine

/-- TC (R160): `Z <- normalize(zext_15(addr))`; no other register is touched and no memory is accessed. -/
def execTc (a : AddrField) (s : State) : Host.Outcome State Fault Refusal :=
  .next (s.setZ (aluNormalize a.toNat))

end Sys2Proof.Machine
end

