-- ==== Sys2Proof/Machine/Flags.lean ====
section
/-! DEFINITION. Tests on a result. The CORE has no flags or condition codes (spec/10_state.md R37): the only tests are the
ALU's sign test and the class that CCS forms on the spot and stores nowhere. -/

namespace Sys2Proof.Machine

/-- `isNegative(w)`: "true iff bit 14 is set" (R123), so -0 tests negative. -/
def isNegative (w : Word) : Bool :=
  w.getLsbD 14

/-- The three classes into which CCS sorts the new A (R190). -/
inductive CcsClass where
  /-- Positive and nonzero. -/
  | positive
  /-- Either zero pattern. -/
  | zero
  /-- Negative and not -0. -/
  | negative
  deriving DecidableEq, Repr

/-- `class(w)` (R190): both zero patterns class as ZERO, and the zero test comes before the sign test (DESIGN CHOICE of
the spec, D8; log 12). -/
def ccsClass (w : Word) : CcsClass :=
  if w = Word.plusZero ∨ w = Word.minusZero then .zero
  else if isNegative w then .negative
  else .positive

/-- `skipOf`, the further positions CCS advances Z by (R190). -/
def skipOf : CcsClass → Word
  | .positive => 1
  | .zero => 2
  | .negative => 3

end Sys2Proof.Machine
end

