-- ==== Sys2Proof/Machine/CountCompareSkip.lean ====
section
/-! DEFINITION. The count/compare/skip family: CCS, in the source's three-way form (spec/44_count_compare_skip.md). -/

namespace Sys2Proof.Machine

/-- CCS (R191): `A <- negate(x)`, then Z advances past the already incremented value by the class of the new A, by plain
binary addition modulo 2^15 (the spec's decision D7, DESIGN CHOICE, log 11). -/
def execCcs (a : AddrField) (s : State) : Host.Outcome State Fault Refusal :=
  let n := aluNegate (memRead s a.toNat)
  .next ((s.setA n).setZ (s.Z + skipOf (ccsClass n)))

end Sys2Proof.Machine
end

