-- ==== Sys2Proof/Machine/Index.lean ====
section
/-! DEFINITION. The index family: INDEX, which rewrites the next instruction word in memory (spec/45_index.md). -/

namespace Sys2Proof.Machine

/-- `field <- add(f, off)[11:0]`: the field zero-extended to 15 bits, the offset a full word, the ALU's add (R201). -/
def indexField (f : AddrField) (off : Word) : AddrField :=
  (aluAdd (f.setWidth 15) off).setWidth 12

/-- `n' <- (n & 0o70000) | field`: the opcode bits are kept (R200, steps 3 and 4). -/
def indexedWord (n off : Word) : Word :=
  (n &&& 0o70000#15) ||| (indexField (n.setWidth 12) off).setWidth 15

/-- INDEX (R200): the offset is read first, then the next word at the incremented Z, and the modified word is written back.
Both accesses to the next word use the data path, not the fetch path (the spec's decision D9, DESIGN CHOICE, log 13). -/
def execIndex (a : AddrField) (s : State) : Host.Outcome State Fault Refusal :=
  let off := memRead s a.toNat
  let n := memRead s s.Z.toNat
  .next (memWrite s s.Z.toNat (indexedWord n off))

end Sys2Proof.Machine
end

