-- ==== Sys2Proof/Machine/LoadStore.lean ====
section
/-! DEFINITION. The load and store family: XCH, TS, CA (spec/43_load_store.md). -/

namespace Sys2Proof.Machine

/-- XCH (R170): read the operand, write the old A to the address, then A takes the value read. A dropped write (register
range or fixed memory) leaves the read side as it is. -/
def execXch (a : AddrField) (s : State) : Host.Outcome State Fault Refusal :=
  let t := memRead s a.toNat
  .next ((memWrite s a.toNat s.A).setA t)

/-- TS (R171): `MemWrite(addr, 1, A)`; A is unchanged, and there is no skip and no overflow action. -/
def execTs (a : AddrField) (s : State) : Host.Outcome State Fault Refusal :=
  .next (memWrite s a.toNat s.A)

/-- CA (R172): `A <- MemRead(addr, 1)`; no addition, so a -0 operand stays -0. -/
def execCa (a : AddrField) (s : State) : Host.Outcome State Fault Refusal :=
  .next (s.setA (memRead s a.toNat))

end Sys2Proof.Machine
end

