-- ==== Sys2Proof/Machine/Unassigned.lean ====
section
/-! DEFINITION. The two unassigned opcodes, which are no-ops and never trap (spec/41_step_and_dispatch.md R147, R148;
spec/30_encoding.md R104). -/

namespace Sys2Proof.Machine

/-- Opcode 6 (R147): `execute(6, addr) = (no effect)`; the address field is ignored. -/
def execOp6 (_a : AddrField) (s : State) : Host.Outcome State Fault Refusal :=
  .next s

/-- Opcode 7 (R148): `execute(7, addr) = (no effect)`; the address field is ignored. -/
def execOp7 (_a : AddrField) (s : State) : Host.Outcome State Fault Refusal :=
  .next s

end Sys2Proof.Machine
end

