-- ==== Sys2Proof/Machine/Dispatch.lean ====
section
/-! DEFINITION. The opcode router: one handler per opcode, and exactly one runs per step (spec/41_step_and_dispatch.md R146). -/

namespace Sys2Proof.Machine

def exec (i : Instr) (s : State) : Host.Outcome State Fault Refusal :=
  match i with
  | .tc a => Sys2Proof.Machine.execTc a s
  | .xch a => Sys2Proof.Machine.execXch a s
  | .ts a => Sys2Proof.Machine.execTs a s
  | .ca a => Sys2Proof.Machine.execCa a s
  | .ccs a => Sys2Proof.Machine.execCcs a s
  | .index a => Sys2Proof.Machine.execIndex a s
  | .op6 a => Sys2Proof.Machine.execOp6 a s
  | .op7 a => Sys2Proof.Machine.execOp7 a s

end Sys2Proof.Machine
end

