-- ==== Sys2Proof/Machine/Step.lean ====
section
/-! DEFINITION. The step: fetch, record, increment, decode, execute, count, as one atomic transition
(spec/41_step_and_dispatch.md R141). -/

namespace Sys2Proof.Machine

/-- One step of the CORE (R141). Each phase sees the effects of the ones before it, so the handler sees the incremented Z.
An unused fault or refusal would end the step with no count. -/
def step (s : State) : Host.Outcome State Fault Refusal :=
  let w := fetch s s.Z.toNat
  match exec (decode w) (incrPhase (recordPhase w s)) with
  | .next t => .next (countPhase t)
  | .fault r => .fault r
  | .refused r => .refused r

/-- `s` with the instruction whose bits are `w` stored where the next step fetches it. Z moves (to 0) only if it is above
0o7777, where no cell exists to hold the word. It stands for the host's `setErasable` or `setFixed` before a run (R254;
log 4). -/
def State.withFetchWord (s : State) (nbits w : Nat) : State :=
  placeAtFetch s (tableWord nbits w)

end Sys2Proof.Machine
end

