-- ==== Sys2Proof/Machine/HostPort.lean ====
section
/-! DEFINITION. The operations the host may perform on the CORE, each atomic and only between steps
(spec/60_exceptions.md R232, R233), with the ROM loader (spec/20_memory.md R78 to R81) and a run as a sequence of them
(R234). None of them is reached by an instruction. -/

namespace Sys2Proof.Machine

/-! ## Reset and the unified ports -/

/-- `reset()`: registers, channels, IR and cycles to 0; both memories are kept (R251; the spec's decision D14, DESIGN
CHOICE, log 3). -/
def hostReset (s : State) : State :=
  { State.reset with erasable := s.erasable, fixed := s.fixed }

/-- `read(addr)` (R79). -/
def hostRead (s : State) (addr : Nat) : Word :=
  memRead s addr

/-- `write(addr, value)`, masked to 15 bits (R70, R79). -/
def hostWrite (s : State) (addr v : Nat) : State :=
  memWrite s addr (aluNormalize v)

/-! ## The test-only bank accessors (R78): an index out of range reads 0 and ignores writes (the spec's decision D24,
DESIGN CHOICE, log 23), and the setters mask to 15 bits (D16, log 19). -/

/-- `getErasable(b, off)` (R78). -/
def getErasable (s : State) (b off : Nat) : Word :=
  if h : b < 2 ∧ off < 1024 then s.readErasable ⟨b, h.1⟩ ⟨off, h.2⟩ else Word.plusZero

/-- `setErasable(b, off, v)` (R78). -/
def setErasable (s : State) (b off v : Nat) : State :=
  if h : b < 2 ∧ off < 1024 then s.writeErasable ⟨b, h.1⟩ ⟨off, h.2⟩ (aluNormalize v) else s

/-- `getFixed(i)` (R78). -/
def getFixed (s : State) (i : Nat) : Word :=
  if h : i < 36864 then s.readFixed ⟨i, h⟩ else Word.plusZero

/-- `setFixed(i, v)` (R78). -/
def setFixed (s : State) (i v : Nat) : State :=
  if h : i < 36864 then s.writeFixed ⟨i, h⟩ (aluNormalize v) else s

/-! ## The ROM loader -/

/-- The loader's input: the bytes of the ROM file, or a file that cannot be opened (R80). -/
inductive RomFile where
  /-- The file cannot be opened. -/
  | cannotOpen
  /-- The file's bytes, in order. -/
  | bytes (image : List (BitVec 8))
  deriving DecidableEq, Repr

/-- The loader's result (R80). -/
inductive LoadResult where
  /-- Whatever was read is kept. -/
  | success
  /-- The file could not be opened; no state changed. -/
  | failure
  deriving DecidableEq, Repr

/-- Fill fixed memory from index `j` on, "until the file is exhausted or all banks are full"; an odd final byte is
discarded (R80, R81). -/
def loadWords : List (BitVec 8) → Nat → Memory → Memory
  | hi :: lo :: rest, j, m =>
    if j < Config.fixedWords then loadWords rest (j + 1) (m.write j (imageWord hi lo)) else m
  | [_], _, m => m
  | [], _, m => m

/-- `loadRom(image)` (R80): it touches fixed memory only. -/
def loadRom (s : State) : RomFile → State × LoadResult
  | .cannotOpen => (s, .failure)
  | .bytes image => (s.setFixedMem (loadWords image 0 s.fixed), .success)

/-! ## Registers and channels -/

/-- The host's register-write port `regWrite(o, v)`, for an offset in 0..15 and any value, masked to 15 bits (R32). -/
def hostRegWrite (s : State) (o : Fin 16) (v : Nat) : State :=
  regWrite s o (aluNormalize v)

/-- `hostSetInput(k, v)`: `in[k] <- v[14:0]`, with no effect for k above 15 (R33; the spec's decision D12, DESIGN CHOICE,
log 16). -/
def hostSetInput (s : State) (k v : Nat) : State :=
  if h : k < 16 then s.setInp ⟨k, h⟩ (aluNormalize v) else s

/-- `hostGetOutput(k)`: out[k], or 0 for k above 15 (R33). -/
def hostGetOutput (s : State) (k : Nat) : Word :=
  if h : k < 16 then s.out[k] else Word.plusZero

/-- What `observe` returns: the registers, channels, IR and cycles (R232; the spec's decision D22, log 22). -/
structure CpuView where
  /-- Accumulator. -/
  A : Word
  /-- Link. -/
  L : Word
  /-- Overflow/auxiliary. -/
  Q : Word
  /-- Erasable-bank register. -/
  EB : Word
  /-- Fixed-bank register. -/
  FB : Word
  /-- Program counter. -/
  Z : Word
  /-- "Both-bank" register. -/
  BB : Word
  /-- Input channels. -/
  inp : Vector Word 16
  /-- Output channels. -/
  out : Vector Word 16
  /-- Last-fetched instruction word. -/
  IR : Word
  /-- Cycle counter. -/
  cycles : Nat
  deriving DecidableEq, Repr

/-- `observe` (R232). -/
def observe (s : State) : CpuView :=
  { A := s.A, L := s.L, Q := s.Q, EB := s.EB, FB := s.FB, Z := s.Z, BB := s.BB, inp := s.inp, out := s.out, IR := s.IR,
    cycles := s.cycles }

/-! ## The operations as data, and a run -/

/-- The operations the host may perform, "exactly the following" (R232). -/
inductive HostOp where
  /-- `reset()` (R251). -/
  | reset
  /-- `step()` (R141). -/
  | step
  /-- `read(addr)` (R79). -/
  | read (addr : Nat)
  /-- `write(addr, v)` (R79). -/
  | write (addr v : Nat)
  /-- `loadRom(image)` (R80). -/
  | loadRom (file : RomFile)
  /-- `getErasable(b, off)` (R78). -/
  | getErasable (b off : Nat)
  /-- `setErasable(b, off, v)` (R78). -/
  | setErasable (b off v : Nat)
  /-- `getFixed(i)` (R78). -/
  | getFixed (i : Nat)
  /-- `setFixed(i, v)` (R78). -/
  | setFixed (i v : Nat)
  /-- `regWrite(o, v)` (R32). -/
  | regWrite (o : Fin 16) (v : Nat)
  /-- `hostSetInput(k, v)` (R33). -/
  | setInput (k v : Nat)
  /-- `hostGetOutput(k)` (R33). -/
  | getOutput (k : Nat)
  /-- `observe` (R232). -/
  | observe
  deriving DecidableEq, Repr

/-- What a host operation returns (R232). -/
inductive HostReply where
  /-- Nothing. -/
  | nothing
  /-- A word. -/
  | word (w : Word)
  /-- The loader's result. -/
  | load (r : LoadResult)
  /-- The observed CPU state. -/
  | view (v : CpuView)
  deriving DecidableEq, Repr

/-- One host operation: the state it leaves and what it returns (the table of R232). -/
def hostOp (op : HostOp) (s : State) : Host.Outcome (State × HostReply) Fault Refusal :=
  match op with
  | .reset => .next (hostReset s, .nothing)
  | .step =>
    match step s with
    | .next t => .next (t, .nothing)
    | .fault r => .fault r
    | .refused r => .refused r
  | .read addr => .next (s, .word (hostRead s addr))
  | .write addr v => .next (hostWrite s addr v, .nothing)
  | .loadRom file => .next ((loadRom s file).1, .load (loadRom s file).2)
  | .getErasable b off => .next (s, .word (getErasable s b off))
  | .setErasable b off v => .next (setErasable s b off v, .nothing)
  | .getFixed i => .next (s, .word (getFixed s i))
  | .setFixed i v => .next (setFixed s i v, .nothing)
  | .regWrite o v => .next (hostRegWrite s o v, .nothing)
  | .setInput k v => .next (hostSetInput s k v, .nothing)
  | .getOutput k => .next (s, .word (hostGetOutput s k))
  | .observe => .next (s, .view (observe s))

/-- A run: a finite sequence of host operations, whose result is the state after the last (R234; the spec's decision D23,
DESIGN CHOICE, log 22). -/
def hostRun : List HostOp → State → Host.Outcome State Fault Refusal
  | [], s => .next s
  | op :: ops, s =>
    match hostOp op s with
    | .next t => hostRun ops t.1
    | .fault r => .fault r
    | .refused r => .refused r

end Sys2Proof.Machine
end

