-- ==== Sys2Proof/Safety.lean ====
section
/-! DEFINITION. What the claims are stated in: the invariant of the state, what two states share, and what the CORE's own
instructions may not change. Safety here is that every step completes (spec/41_step_and_dispatch.md R140, R150). -/

namespace Sys2Proof.Machine

/-- The invariant: both memories are in canonical form, within the bounds of their arrays (R36). That every register,
channel and cell holds a 15-bit value (R21) is in the types. -/
abbrev State.Inv (s : State) : Prop :=
  s.erasable.wf Config.erasableWords = true ∧ s.fixed.wf Config.fixedWords = true

/-- A step from `s` completes: it answers a next state (R140). -/
def Completes (s : State) : Prop :=
  ∃ t, step s = .next t

/-- `n` steps of the CORE with no host operation between them, stopping at the first step that does not complete (none:
R150). It is the host interface's `run` of `Sys2Proof.core` in the model's own types (`Laws/Ops.lean`, `core_run_eq`). -/
def runSteps : Nat → State → Host.Outcome State Fault Refusal
  | 0, s => .next s
  | n + 1, s =>
    match step s with
    | .next t => runSteps n t
    | .fault r => .fault r
    | .refused r => .refused r

/-- `s` and `t` agree on the registers, channels and memories that only the host may change: L, Q, EB, FB, BB, every
channel, fixed memory, and the erasable words at offsets 0..15 of both banks (R36, R42). -/
def SameHostOwned (s t : State) : Prop :=
  t.L = s.L ∧ t.Q = s.Q ∧ t.EB = s.EB ∧ t.FB = s.FB ∧ t.BB = s.BB ∧ t.inp = s.inp ∧ t.out = s.out ∧
    (∀ i, t.readFixed i = s.readFixed i) ∧
    ∀ b off, off.val ≤ 15 → t.readErasable b off = s.readErasable b off

/-- `s` and `t` agree on everything an instruction can read: the registers that have an address, the addressable input
channels in[0..7], and both memories. They may differ in out, in[8..15], IR and cycles (R29, R33, R41). -/
def SameVisible (s t : State) : Prop :=
  t.A = s.A ∧ t.L = s.L ∧ t.Q = s.Q ∧ t.EB = s.EB ∧ t.FB = s.FB ∧ t.Z = s.Z ∧ t.BB = s.BB ∧
    (∀ k : Fin 8, t.inp[k.val] = s.inp[k.val]) ∧ t.erasable = s.erasable ∧ t.fixed = s.fixed

/-- Every cell of `t` holds what it holds in `s`, but for the erasable cell that `target` names, if it names one. -/
def SameCellsBut (target : Target) (s t : State) : Prop :=
  (∀ i, t.readFixed i = s.readFixed i) ∧
    ∀ b off, target ≠ .erasable b off → t.readErasable b off = s.readErasable b off

end Sys2Proof.Machine
end

