-- ==== Sys2Proof/Certificates/Slice0/Obligations.lean ====
section
/-! DEFINITION. The statements for the provers, from the spec's numbered rules. Each docstring names the rules it
formalises; where a clause rests on a choice (the model's, or one the spec marks as its own decision or derivation), it
says so and names the log entry. -/

open Sys2Proof Sys2Proof.Machine

/-! ## Word arithmetic (spec/40_word_arithmetic.md) -/

/-- R122. normalize is `w mod 2^15`, which is the mask 0x7FFF, on a value of any width, and the identity on a word. -/
def Obligations.NormalizeMasksToFifteenBits : Prop :=
  (∀ w : Nat, (aluNormalize w).toNat = w % 2 ^ 15 ∧ (aluNormalize w).toNat = w &&& 0x7FFF) ∧
    ∀ w : Word, aluNormalize w.toNat = w

/-- R123. The sign test is bit 14, that is, a word of 2^14 or more; so -0 and 0o40000 test negative and +0 does not. -/
def Obligations.SignTestIsBitFourteen : Prop :=
  (∀ w : Word, (isNegative w = true ↔ w.getLsbD 14 = true) ∧ (isNegative w = true ↔ 2 ^ 14 ≤ w.toNat)) ∧
    isNegative Word.minusZero = true ∧ isNegative Word.plusZero = false ∧
    isNegative 0o40000 = true ∧ val 0o40000 = -16383

/-- R124. negate is the bitwise complement, `0o77777 - w`; it exchanges the two zeros, and 0o37777 with 0o40000. -/
def Obligations.NegateIsTheComplement : Prop :=
  (∀ w : Word, aluNegate w = ~~~w ∧ (aluNegate w).toNat = 0o77777 - w.toNat) ∧
    aluNegate Word.plusZero = Word.minusZero ∧ aluNegate Word.minusZero = Word.plusZero ∧
    aluNegate 0o37777 = 0o40000 ∧ aluNegate 0o40000 = 0o37777

/-- The laws of negate that the spec derives (40_word_arithmetic.md section 3, "Laws of negate"): it is its own inverse,
flips the signed value and flips the sign test. -/
def Obligations.NegateFlipsValueAndSign : Prop :=
  ∀ w : Word, aluNegate (aluNegate w) = w ∧ val (aluNegate w) = -val w ∧ isNegative (aluNegate w) = !isNegative w

/-- The modular law of add and its signed reading, which the spec derives (40_word_arithmetic.md section 3): the result is
congruent to the sum modulo 2^15 - 1; a signed sum in range is exact, and one out of range is off by 32767, with the
wrong sign and nothing recorded. -/
def Obligations.AddIsExactInRangeAndWrapsOutside : Prop :=
  ∀ a b : Word,
    (aluAdd a b).toNat % (2 ^ 15 - 1) = (a.toNat + b.toNat) % (2 ^ 15 - 1) ∧
    (-16383 ≤ val a + val b ∧ val a + val b ≤ 16383 → val (aluAdd a b) = val a + val b) ∧
    (16383 < val a + val b → val (aluAdd a b) = val a + val b - 32767 ∧ isNegative (aluAdd a b) = true) ∧
    (val a + val b < -16383 → val (aluAdd a b) = val a + val b + 32767 ∧ isNegative (aluAdd a b) = false)

/-- Which zero add returns, which the spec derives (40_word_arithmetic.md section 3): +0 only from +0 and +0; every other
sum that is arithmetically zero is -0, the sum of a word and its negation among them. -/
def Obligations.AddReturnsPlusZeroOnlyFromPlusZeros : Prop :=
  (∀ a b : Word, aluAdd a b = Word.plusZero ↔ a = Word.plusZero ∧ b = Word.plusZero) ∧
    (∀ a b : Word, val a + val b = 0 → ¬(a = Word.plusZero ∧ b = Word.plusZero) → aluAdd a b = Word.minusZero) ∧
    ∀ x : Word, aluAdd (aluNegate x) x = Word.minusZero

/-- add is commutative with identity +0, which the source states, and associative on bit patterns with -0 an identity but
at +0, which the spec derives (40_word_arithmetic.md section 3). -/
def Obligations.AddCommutesAndAssociates : Prop :=
  (∀ a b : Word, aluAdd a b = aluAdd b a) ∧
    (∀ x : Word, aluAdd Word.plusZero x = aluNormalize x.toNat) ∧
    (∀ x : Word, x ≠ Word.plusZero → aluAdd Word.minusZero x = x) ∧
    aluAdd Word.minusZero Word.plusZero = Word.minusZero ∧
    ∀ a b c : Word, aluAdd (aluAdd a b) c = aluAdd a (aluAdd b c)

/-! ## Encoding (spec/30_encoding.md) -/

/-- Decoding and encoding agree in both directions, so every word has one meaning and every instruction one word; and in
the byte form of the ROM image an instruction's two bytes decode to it, leaving the bytes after them. (The byte form of an
instruction is the model's choice, log 25.) -/
def Obligations.DecodeAndEncodeAgree : Prop :=
  (∀ i : Instr, i.wellFormed = true → decode (encode i) = i) ∧
    (∀ w : Word, encode (decode w) = w) ∧
    ∀ (i : Instr) (rest : List (BitVec 8)), i.wellFormed = true → decodeBytes (encodeBytes i ++ rest) = .ok (i, rest)

/-- The opcode map: a word that matches a row's pattern under the mask 0o70000 decodes to that row's instruction, with the
low 12 bits as its address field; and every word matches a row. (The mnemonics are the spec's decision D17, log 20; that
the decoder is total the spec derives.) -/
def Obligations.OpcodeMapDecodesEveryWord : Prop :=
  ∀ w : Word,
    (w &&& 0o70000 = 0o00000 → decode w = .tc (w.setWidth 12)) ∧
    (w &&& 0o70000 = 0o10000 → decode w = .xch (w.setWidth 12)) ∧
    (w &&& 0o70000 = 0o20000 → decode w = .ts (w.setWidth 12)) ∧
    (w &&& 0o70000 = 0o30000 → decode w = .ca (w.setWidth 12)) ∧
    (w &&& 0o70000 = 0o40000 → decode w = .ccs (w.setWidth 12)) ∧
    (w &&& 0o70000 = 0o50000 → decode w = .index (w.setWidth 12)) ∧
    (w &&& 0o70000 = 0o60000 → decode w = .op6 (w.setWidth 12)) ∧
    (w &&& 0o70000 = 0o70000 → decode w = .op7 (w.setWidth 12)) ∧
    (decode w).opcode.toNat = w.toNat / 4096 ∧ (decode w).addr.toNat = w.toNat % 4096

/-- The words of the spec's encoding table, one or more per family, decode to the instructions they stand for.
(The mnemonics of opcodes 1, 2, 3, 6 and 7 are the spec's decision D17, log 20.) -/
def Obligations.SpecWordsDecode : Prop :=
  decode 0o00000 = .tc 0 ∧ decode 0o01234 = .tc 0o1234 ∧ decode 0o17777 = .xch 0o7777 ∧ decode 0o20201 = .ts 0o201 ∧
    decode 0o30300 = .ca 0o300 ∧ decode 0o40000 = .ccs 0 ∧ decode 0o50005 = .index 5 ∧ decode 0o60000 = .op6 0 ∧
    decode 0o77777 = .op7 0o7777

/-- An assembler line with fields in range encodes as `(op << 12) | addr`, which decodes to those two fields; a line with a
field out of range has no encoding. (The syntax is the spec's decision D17, log 20.) -/
def Obligations.AssemblerLinesEncodeTheirFields : Prop :=
  ∀ r : RawInstr,
    (r.op ≤ 7 ∧ r.addr ≤ 0o7777 →
      ∃ w, assemble r = some w ∧ w.toNat = r.op * 2 ^ 12 + r.addr ∧ (decode w).raw = r) ∧
    (7 < r.op ∨ 0o7777 < r.addr → assemble r = none)

/-! ## The step (spec/41_step_and_dispatch.md) -/

/-- R141. A step is: fetch the word at Z, record it in IR, increment Z, decode, execute exactly the decoded instruction on
that state, and count one cycle. -/
def Obligations.StepRunsTheDecodedInstruction : Prop :=
  ∀ (s : State) (i : Instr), decode (fetch s s.Z.toNat) = i → i.wellFormed = true →
    step s =
      match exec i { s with IR := fetch s s.Z.toNat, Z := aluNormalize (s.Z.toNat + 1) } with
      | .next t => .next { t with cycles := t.cycles + 1 }
      | .fault r => .fault r
      | .refused r => .refused r

/-- R140. The step is total: every state has exactly one next state. -/
def Obligations.EveryStateHasExactlyOneNextState : Prop :=
  ∀ s : State, ∃ t, step s = .next t ∧ ∀ o, step s = o → o = .next t

/-- R149, R150. A run of any length completes, and each of its steps adds exactly 1 to cycles, whatever the opcodes; so
after n steps from reset, cycles = n. -/
def Obligations.RunOfAnyLengthCompletesAndCounts : Prop :=
  (∀ (n : Nat) (s : State), ∃ t : State, runSteps n s = .next t ∧ t.cycles = s.cycles + n) ∧
    ∀ n : Nat, ∃ t : State, runSteps n State.reset = .next t ∧ t.cycles = n

/-- R143. Every step leaves in IR the word it fetched, whatever the opcode, and also when an INDEX rewrote memory; and the
handler already sees it there. -/
def Obligations.StepRecordsTheFetchedWord : Prop :=
  ∀ s : State, ∃ t u : State, step s = .next t ∧ t.IR = fetch s s.Z.toNat ∧
    u.IR = fetch s s.Z.toNat ∧ exec (decode (fetch s s.Z.toNat)) u = .next { t with cycles := s.cycles }

/-- What a step leaves in Z, by the fetched opcode: TC its target, CCS one of three skips past the incremented Z, so that
the word after a CCS is never next, and any other instruction Z + 1, modulo 2^15. (Plain binary arithmetic on Z is the
spec's decision D7, log 11.) -/
def Obligations.StepLeavesZByOpcode : Prop :=
  ∀ s : State, ∃ t : State, step s = .next t ∧
    match decode (fetch s s.Z.toNat) with
    | .tc a => t.Z = a.setWidth 15
    | .ccs _ => t.Z = s.Z + 2 ∨ t.Z = s.Z + 3 ∨ t.Z = s.Z + 4
    | .xch _ | .ts _ | .ca _ | .index _ | .op6 _ | .op7 _ => t.Z = s.Z + 1

/-- A step with Z above 0o7777 fetches the word 0o00000 and so runs TC 0. (That a fetch there returns 0 is the spec's
decision D6, log 10.) -/
def Obligations.StepAboveTheDecodedRangeRunsTcZero : Prop :=
  ∀ s : State, 0o7777 < s.Z.toNat → step s = .next { s with Z := 0, IR := 0, cycles := s.cycles + 1 }

/-- R104, R147, R148. Opcodes 6 and 7 decode, whatever their address field, to instructions with no effect; a step that
fetches one only writes IR, increments Z and counts. -/
def Obligations.UnassignedOpcodesAreNoOps : Prop :=
  (∀ (a : AddrField) (s : State),
      decode ((6 : Opcode) ++ a) = .op6 a ∧ exec (.op6 a) s = .next s ∧
      decode ((7 : Opcode) ++ a) = .op7 a ∧ exec (.op7 a) s = .next s) ∧
    ∀ (a : AddrField) (s : State),
      fetch s s.Z.toNat = (6 : Opcode) ++ a ∨ fetch s s.Z.toNat = (7 : Opcode) ++ a →
      step s = .next { s with IR := fetch s s.Z.toNat, Z := aluNormalize (s.Z.toNat + 1), cycles := s.cycles + 1 }

/-! ## TC (spec/42_control_transfer.md) -/

/-- R160. TC sets Z to its zero-extended address field, 0..0o7777, and changes nothing else: A, L and Q among the rest. A
step that fetches it does so whatever Z was. -/
def Obligations.TcSetsZToItsAddressField : Prop :=
  (∀ (a : AddrField) (s : State),
      decode ((0 : Opcode) ++ a) = .tc a ∧ exec (.tc a) s = .next { s with Z := a.setWidth 15 } ∧
      (a.setWidth 15 : Word).toNat = a.toNat ∧ a.toNat ≤ 0o7777) ∧
    ∀ (a : AddrField) (s : State), fetch s s.Z.toNat = (0 : Opcode) ++ a →
      step s = .next { s with Z := a.setWidth 15, IR := (0 : Opcode) ++ a, cycles := s.cycles + 1 }

/-- A `TC self` is a fixed point of the step, but for cycles, which keeps growing, and IR, which stays equal to the loop
word: after any positive number of steps the rest of the state is as it was. (That a run ends so by convention is the
spec's decision D23, log 22, and that cycles never wraps its decision D15, log 18.) -/
def Obligations.TcSelfLoopsForever : Prop :=
  ∀ (a : AddrField) (s : State) (n : Nat), s.Z.toNat = a.toNat → fetch s s.Z.toNat = (0 : Opcode) ++ a →
    runSteps (n + 1) s = .next { s with IR := (0 : Opcode) ++ a, cycles := s.cycles + (n + 1) }

/-! ## XCH, TS, CA (spec/43_load_store.md) -/

/-- R170. XCH reads the operand, writes the old A to the address and gives A the value read. In the register range and in
fixed memory the write is dropped and A still gets the value read, so XCH 0 leaves A, XCH 5 loads the incremented Z and
XCH 17 loads +0; in erasable memory it is a true swap. (What the channel slots read: `RegisterFileReadsInOrder`.) -/
def Obligations.XchSwapsAWithItsOperand : Prop :=
  ∀ (a : AddrField) (s : State),
    decode ((1 : Opcode) ++ a) = .xch a ∧
    exec (.xch a) s = .next { memWrite s a.toNat s.A with A := memRead s a.toNat } ∧
    (a.toNat ≤ 0o17 → exec (.xch a) s = .next { s with A := regRead s (Fin.ofNat 16 a.toNat) }) ∧
    exec (.xch 0) s = .next s ∧ exec (.xch 5) s = .next { s with A := s.Z } ∧
    exec (.xch 0o17) s = .next { s with A := 0 } ∧
    (0o2000 ≤ a.toNat → exec (.xch a) s = .next { s with A := memRead s a.toNat }) ∧
    (0o20 ≤ a.toNat → a.toNat ≤ 0o1777 → s.Inv →
      ∃ t : State, exec (.xch a) s = .next t ∧ t.A = memRead s a.toNat ∧ memRead t a.toNat = s.A)

/-- R171. TS writes A to the address and changes no register. In the register range and in fixed memory it has no effect;
in erasable memory the address then reads as A. -/
def Obligations.TsStoresA : Prop :=
  ∀ (a : AddrField) (s : State),
    decode ((2 : Opcode) ++ a) = .ts a ∧
    exec (.ts a) s = .next (memWrite s a.toNat s.A) ∧
    (a.toNat ≤ 0o17 ∨ 0o2000 ≤ a.toNat → exec (.ts a) s = .next s) ∧
    (0o20 ≤ a.toNat → a.toNat ≤ 0o1777 → s.Inv →
      ∃ t : State, exec (.ts a) s = .next t ∧ t = { s with erasable := t.erasable } ∧ memRead t a.toNat = s.A)

/-- R172. CA replaces A by the operand word unchanged, a -0 operand included, and changes nothing else: CA 0 leaves A, CA 1
to 4 and 6 load L, Q, EB, FB and BB, CA 5 the incremented Z, CA 17 +0. (What an address in general reads is the business
of memRead: `AddressMapOfTheDataPath`, and for the channel slots `RegisterFileReadsInOrder`.) -/
def Obligations.CaLoadsItsOperand : Prop :=
  ∀ (a : AddrField) (s : State),
    decode ((3 : Opcode) ++ a) = .ca a ∧
    exec (.ca a) s = .next { s with A := memRead s a.toNat } ∧
    exec (.ca 0) s = .next s ∧
    exec (.ca 1) s = .next { s with A := s.L } ∧ exec (.ca 2) s = .next { s with A := s.Q } ∧
    exec (.ca 3) s = .next { s with A := s.EB } ∧ exec (.ca 4) s = .next { s with A := s.FB } ∧
    exec (.ca 5) s = .next { s with A := s.Z } ∧ exec (.ca 6) s = .next { s with A := s.BB } ∧
    exec (.ca 0o17) s = .next { s with A := 0 }

/-- R173. The frame of the family: XCH changes A and at most the erasable cell its address resolves to, TS at most that
cell, CA only A; every other register, channel and cell, IR and cycles stay as they are across the handler, and every data
address outside the register file that does not resolve to that cell reads as before. The step loop itself changes only Z,
IR and cycles, as a step on an instruction with no effect shows. -/
def Obligations.LoadStoreFrame : Prop :=
  (∀ (a : AddrField) (s t : State), exec (.xch a) s = .next t →
      t = { s with A := t.A, erasable := t.erasable } ∧ SameCellsBut (resolve s a.toNat) s t ∧
      ∀ n, 0o20 ≤ n → resolve s n ≠ resolve s a.toNat → memRead t n = memRead s n) ∧
    (∀ (a : AddrField) (s t : State), exec (.ts a) s = .next t →
      t = { s with erasable := t.erasable } ∧ SameCellsBut (resolve s a.toNat) s t ∧
      ∀ n, 0o20 ≤ n → resolve s n ≠ resolve s a.toNat → memRead t n = memRead s n) ∧
    (∀ (a : AddrField) (s t : State), exec (.ca a) s = .next t →
      t = { s with A := t.A } ∧ SameCellsBut .nothing s t ∧ ∀ n, 0o20 ≤ n → memRead t n = memRead s n) ∧
    ∀ (s t : State) (a : AddrField), decode (fetch s s.Z.toNat) = .op6 a → step s = .next t →
      t = { s with Z := t.Z, IR := t.IR, cycles := t.cycles }

/-! ## CCS (spec/44_count_compare_skip.md) -/

/-- CCS negates its operand into A and advances Z, past the increment, by 1, 2 or 3 for a positive, zero or negative new A;
nothing else changes, memory among the rest. (The binary addition on Z is the spec's decision D7, log 11, and the class of
the zeros its decision D8, log 12.) -/
def Obligations.CcsNegatesAndSkips : Prop :=
  ∀ (a : AddrField) (s : State),
    decode ((4 : Opcode) ++ a) = .ccs a ∧
    exec (.ccs a) s = .next { s with
      A := aluNegate (memRead s a.toNat)
      Z := s.Z + skipOf (ccsClass (aluNegate (memRead s a.toNat))) }

/-- The three-way outcome by the sign of the operand as a 1's-complement number, for a state whose Z is already incremented:
a negative operand skips 1 and leaves its magnitude in A, either zero skips 2 and leaves the other zero, a positive operand
skips 3 and leaves its negative. (D7 and D8: log 11, log 12.) -/
def Obligations.CcsSkipsByTheOperandsSign : Prop :=
  ∀ (a : AddrField) (s : State), ∃ t : State, exec (.ccs a) s = .next t ∧
    val t.A = -val (memRead s a.toNat) ∧
    (val (memRead s a.toNat) < 0 → t.Z = s.Z + 1) ∧
    (val (memRead s a.toNat) = 0 → t.Z = s.Z + 2) ∧
    (0 < val (memRead s a.toNat) → t.Z = s.Z + 3) ∧
    (memRead s a.toNat = Word.plusZero → t.A = Word.minusZero) ∧
    (memRead s a.toNat = Word.minusZero → t.A = Word.plusZero)

/-! ## INDEX (spec/45_index.md) -/

/-- INDEX reads the offset at its address and the next word at the incremented Z, adds them with the ALU's add in the
address field, keeps the opcode bits and writes the word back at Z. (That both accesses to the next word use the data path
is the spec's decision D9, log 13.) -/
def Obligations.IndexRewritesTheNextWord : Prop :=
  ∀ (a : AddrField) (s : State),
    decode ((5 : Opcode) ++ a) = .index a ∧
    exec (.index a) s = .next (memWrite s s.Z.toNat
      (opField (memRead s s.Z.toNat) ++
        (aluAdd ((addrField (memRead s s.Z.toNat)).setWidth 15) (memRead s a.toNat)).setWidth 12))

/-- The address-field addition in cases, which the spec derives: a positive offset adds modulo 2^12; a negative offset -k
subtracts where the field is larger, gives 0o7777 where it cancels the field, and gives the low 12 bits of the
1's-complement word of the negative sum where the field is smaller; -0 is the identity but on field 0. -/
def Obligations.IndexFieldArithmetic : Prop :=
  ∀ (f : AddrField) (off : Word),
    (off.toNat ≤ 0o37777 → (indexField f off).toNat = (f.toNat + off.toNat) % 2 ^ 12) ∧
    (f ≠ 0 → indexField f Word.minusZero = f) ∧ indexField 0 Word.minusZero = 0o7777 ∧
    ∀ k : Nat, 1 ≤ k → k ≤ 16383 → off.toNat = 0o77777 - k →
      (k < f.toNat → (indexField f off).toNat = f.toNat - k) ∧
      (f.toNat = k → (indexField f off).toNat = 0o7777) ∧
      (f.toNat < k → (indexField f off).toNat = (0o77777 - (k - f.toNat)) % 2 ^ 12)

/-- Why the end-around carry matters, which the spec derives: a plain binary add of the field and the offset gives the same
field when the sum does not carry out of bit 14, and a field one too small, modulo 2^12, when it does. -/
def Obligations.IndexNeedsTheEndAroundCarry : Prop :=
  ∀ (f : AddrField) (off : Word),
    (f.toNat + off.toNat < 2 ^ 15 → indexField f off = (f.setWidth 15 + off).setWidth 12) ∧
    (2 ^ 15 ≤ f.toNat + off.toNat →
      indexField f off = (f.setWidth 15 + off).setWidth 12 + 1 ∧ indexField f off ≠ (f.setWidth 15 + off).setWidth 12)

/-- The frame of INDEX, which the spec derives: no register, channel, IR or cycles changes, and no cell but the erasable
one that the incremented Z resolves to; every data address outside the register file that does not resolve to it reads as
before. With Z in the register range or at 0o2000 or above, nothing changes at all. (D9, log 13.) -/
def Obligations.IndexChangesOnlyTheNextWord : Prop :=
  ∀ (a : AddrField) (s : State), ∃ t : State, exec (.index a) s = .next t ∧
    t = { s with erasable := t.erasable } ∧ SameCellsBut (resolve s s.Z.toNat) s t ∧
    (∀ n, 0o20 ≤ n → resolve s n ≠ resolve s s.Z.toNat → memRead t n = memRead s n) ∧
    (s.Z.toNat ≤ 0o17 ∨ 0o2000 ≤ s.Z.toNat → t = s)

/-- Self-modification, which the spec derives: where the word after an INDEX is in erasable memory at 0o20..0o1777, the
very next step fetches and runs that word with its address field indexed and its opcode kept. Anywhere else the next step
fetches the unmodified word. (D6, D7 and D9: log 10, log 11, log 13.) -/
def Obligations.IndexActsOnTheVeryNextStep : Prop :=
  ∀ (a : AddrField) (s : State), s.Inv → fetch s s.Z.toNat = (5 : Opcode) ++ a →
    ∃ t : State, step s = .next t ∧ t.Z = s.Z + 1 ∧ t.A = s.A ∧
      (0o20 ≤ t.Z.toNat → t.Z.toNat ≤ 0o1777 →
        fetch t t.Z.toNat = opField (fetch s t.Z.toNat) ++
          indexField (addrField (fetch s t.Z.toNat)) (memRead { s with Z := t.Z } a.toNat)) ∧
      (t.Z.toNat ≤ 0o17 ∨ 0o2000 ≤ t.Z.toNat → fetch t t.Z.toNat = fetch s t.Z.toNat)

/-! ## Memory and address decode (spec/20_memory.md, spec/10_state.md) -/

/-- The address map by subtraction from each window's base, which the decode computes by bit fields. (The offsets and
splits are the spec's decisions D1, D2, D3, D4 and D5: log 5 to log 9.) -/
def Obligations.AddressMapOfTheDataPath : Prop :=
  ∀ (s : State) (n : Nat),
    (∀ h : n ≤ 0o17, resolve s n = .reg ⟨n, by omega⟩) ∧
    (0o20 ≤ n → ∀ h : n ≤ 0o777, resolve s n = .erasable (if s.EB.getLsbD 0 then 1 else 0) ⟨n, by omega⟩) ∧
    (0o1000 ≤ n → ∀ h : n ≤ 0o1777, resolve s n = .erasable (if s.EB.getLsbD 1 then 1 else 0) ⟨n, by omega⟩) ∧
    (0o2000 ≤ n → ∀ h : n ≤ 0o2777, resolve s n = .fixed ⟨n - 0o2000, by omega⟩) ∧
    (0o3000 ≤ n → ∀ h : n ≤ 0o3777, resolve s n = .fixed ⟨1024 + (n - 0o3000), by omega⟩) ∧
    (0o4000 ≤ n → ∀ h : n ≤ 0o5777,
      resolve s n = .fixed ⟨1024 * min s.FB.toNat 35 + (n - 0o4000), by omega⟩) ∧
    (0o6000 ≤ n → ∀ h : n ≤ 0o7777,
      resolve s n = .fixed ⟨1024 * min s.FB.toNat 35 + (n - 0o6000), by omega⟩) ∧
    (0o7777 < n → resolve s n = .nothing)

/-- R68. An address above 0o7777 resolves to nothing: a read gives +0 and a write does nothing. -/
def Obligations.OutOfRangeReadsZeroAndDropsWrites : Prop :=
  ∀ (s : State) (n : Nat), 0o7777 < n →
    resolve s n = .nothing ∧ memRead s n = Word.plusZero ∧ ∀ v, memWrite s n v = s

/-- R70. The unified write stores the low 15 bits of the value in the erasable cell its address resolves to, and has no
effect where the address resolves to a register, to fixed memory or to nothing. -/
def Obligations.UnifiedWriteReachesErasableOnly : Prop :=
  ∀ (s : State) (n v : Nat),
    (∀ b off, resolve s n = .erasable b off → hostWrite s n v = s.writeErasable b off (BitVec.ofNat 15 v)) ∧
    (∀ o, resolve s n = .reg o → hostWrite s n v = s) ∧
    (∀ i, resolve s n = .fixed i → hostWrite s n v = s) ∧
    (resolve s n = .nothing → hostWrite s n v = s)

/-- R88. The source's memory properties: after a write, a register address reads as before, an erasable address reads as
the low 15 bits of the value written, and a fixed address reads as before. -/
def Obligations.WriteThenReadByAddressClass : Prop :=
  ∀ (s : State) (n v : Nat),
    (n ≤ 15 → hostRead (hostWrite s n v) n = hostRead s n) ∧
    (0o20 ≤ n → n ≤ 0o1777 → s.Inv → hostRead (hostWrite s n v) n = BitVec.ofNat 15 v) ∧
    (0o2000 ≤ n → n ≤ 0o7777 → hostRead (hostWrite s n v) n = hostRead s n)

/-- The register file as data addresses 0..15 in the source's order, then the eight channel slots and the unmapped offset
15; so CA and XCH of a slot's address load its input channel into A and change nothing else. (That slot k reads input
channel k is the spec's decision D10, log 14.) -/
def Obligations.RegisterFileReadsInOrder : Prop :=
  ∀ s : State,
    (∀ k : Fin 8,
      exec (.ca (BitVec.ofNat 12 (7 + k.val))) s = .next { s with A := s.inp[k.val] } ∧
      exec (.xch (BitVec.ofNat 12 (7 + k.val))) s = .next { s with A := s.inp[k.val] }) ∧
    memRead s 0 = s.A ∧ memRead s 1 = s.L ∧ memRead s 2 = s.Q ∧ memRead s 3 = s.EB ∧ memRead s 4 = s.FB ∧
    memRead s 5 = s.Z ∧ memRead s 6 = s.BB ∧ (∀ k : Fin 8, memRead s (7 + k.val) = s.inp[k.val]) ∧ memRead s 15 = 0

/-- Fetch and read diverge at 0..0o17 and agree everywhere else: up to 0o1777 a fetch reads the erasable cell EB selects,
whatever the registers hold. (Which bank, and the fetch from 0o2000 up, are the spec's decisions D1 and D6: log 5,
log 10.) -/
def Obligations.FetchNeverReturnsARegister : Prop :=
  (∀ (s : State) (n : Nat),
      (∀ h : n ≤ 0o777, fetch s n = s.readErasable (if s.EB.getLsbD 0 then 1 else 0) ⟨n, by omega⟩) ∧
      (0o1000 ≤ n → ∀ h : n ≤ 0o1777, fetch s n = s.readErasable (if s.EB.getLsbD 1 then 1 else 0) ⟨n, by omega⟩) ∧
      (0o20 ≤ n → fetch s n = memRead s n)) ∧
    ∀ (s t : State) (n : Nat), n ≤ 0o1777 → t.EB = s.EB → t.erasable = s.erasable → fetch t n = fetch s n

/-- A stored word is seen by a later fetch at the same address under the same EB, with no fence, which the spec derives
(20_memory.md section 7); and a data write never changes what a fetch at 0..0o17 or at 0o2000 or above returns, or a
fetch at an address that resolves to another cell. (The bank and the decode of a fetch are the spec's decision D6, log 10,
and that a fetch at 0..0o17 reads a cell no data address reaches rests on its decision D1, log 5.) -/
def Obligations.FetchSeesWhatWasStored : Prop :=
  ∀ (s : State) (n : Nat) (v : Word),
    (0o20 ≤ n → n ≤ 0o1777 → s.Inv → fetch (memWrite s n v) n = v) ∧
    (∀ m, m ≤ 0o17 ∨ 0o2000 ≤ m → fetch (memWrite s n v) m = fetch s m) ∧
    ∀ m, fetchResolve s m ≠ resolve s n → fetch (memWrite s n v) m = fetch s m

/-- The canonical form is one: two states that meet the invariant, agree on everything the host observes and hold the same
word in every cell are equal. (The list form of memory is the model's choice, log 1; what the host observes is the spec's
decision D22, log 22.) -/
def Obligations.EqualContentsAreEqualStates : Prop :=
  ∀ s t : State, s.Inv → t.Inv → observe s = observe t →
    (∀ b off, s.readErasable b off = t.readErasable b off) → (∀ i, s.readFixed i = t.readFixed i) → s = t

/-! ## Whole-machine rules -/

/-- No instruction changes L, Q, EB, FB, BB, a channel, fixed memory or the erasable words at offsets 0..15, over a run of
any length. The spec derives it for the registers, the channels and those words, and states it of fixed memory ("read-only
from the instruction/data path", 10_state.md section 4). (That those words are the ones at addresses 0..15 is the spec's
decision D1, log 5, that INDEX writes through the data path its decision D9, log 13, and that no instruction reaches the
register-write port its decision D11, log 15.) -/
def Obligations.RunKeepsWhatOnlyTheHostMayChange : Prop :=
  ∀ (n : Nat) (s : State), ∃ t : State, runSteps n s = .next t ∧ SameHostOwned s t

/-- Which instructions write A and Z: only XCH, CA and CCS change A in a step, and only TC and CCS leave in Z anything but
the increment (10_state.md section 2). (The increment is plain binary by the spec's decision D7, log 11.) -/
def Obligations.OnlyTheNamedInstructionsWriteAAndZ : Prop :=
  ∀ s : State, ∃ t : State, step s = .next t ∧
    (t.A ≠ s.A → ∃ a, decode (fetch s s.Z.toNat) = .xch a ∨ decode (fetch s s.Z.toNat) = .ca a ∨
      decode (fetch s s.Z.toNat) = .ccs a) ∧
    (t.Z ≠ s.Z + 1 → ∃ a, decode (fetch s s.Z.toNat) = .tc a ∨ decode (fetch s s.Z.toNat) = .ccs a)

/-- A step changes at most one memory word, and that one only in erasable memory at offset 16 or above. The spec derives it:
each handler makes at most one write (41_step_and_dispatch.md section 4, 45_index.md), which changes at most one erasable
cell (20_memory.md section 3) and none that the addresses 0..15 reach (10_state.md section 6). (That those cells are at
offsets 0..15, with no base subtracted, is the spec's decision D1, log 5, and that INDEX writes through the data path its
decision D9, log 13.) -/
def Obligations.StepChangesAtMostOneWord : Prop :=
  ∀ s : State, ∃ t : State, step s = .next t ∧ t.fixed = s.fixed ∧
    ∀ b off b' off', t.readErasable b off ≠ s.readErasable b off → t.readErasable b' off' ≠ s.readErasable b' off' →
      b = b' ∧ off = off' ∧ 16 ≤ off.val

/-- What no instruction can read does not matter: two states that differ only in the output channels, the input channels
8 to 15, IR and cycles take steps to states that again differ only so, over a run of any length. The spec derives it of IR
and cycles (10_state.md section 6); of the channels it follows from the spec's decision D10 (log 14). -/
def Obligations.UnreadableStateDoesNotInfluenceARun : Prop :=
  ∀ (n : Nat) (s s' : State), SameVisible s s' →
    ∃ t t' : State, runSteps n s = .next t ∧ runSteps n s' = .next t' ∧ SameVisible t t' ∧
      (0 < n → t'.IR = t.IR)

/-- Every step keeps the invariant, from every state that meets it. (The list form of memory is the model's choice,
log 1.) -/
def Obligations.StepKeepsTheInvariant : Prop :=
  ∀ s : State, s.Inv → ∃ t : State, step s = .next t ∧ t.Inv

/-- The state after reset meets the invariant. (The list form of memory is the model's choice, log 1.) -/
def Obligations.ResetMeetsTheInvariant : Prop :=
  State.reset.Inv

/-- Every host operation completes from every state and keeps the invariant, and so does every run of them. (The list form
of memory is the model's choice, log 1; a run as a list of operations is the spec's decision D23, log 22; the operations on
registers and channels, and what an index out of range does, are its decisions D11, D12 and D24: log 15, log 16,
log 23.) -/
def Obligations.HostOperationsKeepTheInvariant : Prop :=
  ∀ (ops : List HostOp) (s : State), s.Inv → ∃ t : State, hostRun ops s = .next t ∧ t.Inv

/-! ## Reset and the host's ports (spec/70_reset_and_hazards.md, spec/60_exceptions.md) -/

/-- The state at power-on: every register and channel, IR and cycles are 0, and so is every cell. (The zero contents of
memory are the spec's decision D14, log 2.) -/
def Obligations.PowerOnIsAllZero : Prop :=
  State.reset.A = 0 ∧ State.reset.L = 0 ∧ State.reset.Q = 0 ∧ State.reset.EB = 0 ∧ State.reset.FB = 0 ∧
    State.reset.Z = 0 ∧ State.reset.BB = 0 ∧ State.reset.IR = 0 ∧ State.reset.cycles = 0 ∧
    (∀ k : Fin 16, State.reset.inp[k.val] = 0 ∧ State.reset.out[k.val] = 0) ∧
    (∀ b off, State.reset.readErasable b off = 0) ∧ ∀ i, State.reset.readFixed i = 0

/-- The host's reset() sets the registers, channels, IR and cycles to their reset values and keeps both memories, so the
next fetch is of erasable[0][0]. (That it keeps memory is the spec's decision D14, log 3; the entry point the spec
derives, from a fetch whose cell is its decisions D1 and D6: log 5, log 10.) -/
def Obligations.HostResetKeepsMemory : Prop :=
  ∀ s : State,
    hostReset s = { State.reset with erasable := s.erasable, fixed := s.fixed } ∧
    (∀ b off, (hostReset s).readErasable b off = s.readErasable b off) ∧
    (∀ i, (hostReset s).readFixed i = s.readFixed i) ∧
    fetch (hostReset s) (hostReset s).Z.toNat = s.readErasable 0 0

/-- The host's register-write port masks to 15 bits: offsets 0..6 then read as the value, offsets 7..14 write output
channels, which no register-file read sees, and offset 15 has no effect; every other offset reads as before and memory is
as it was. (The channel slots and the port are the spec's decisions D10 and D11: log 14, log 15. That EB, FB and BB, among
the other offsets, keep their values while one of them is written is its decision D13, log 17.) -/
def Obligations.RegWriteReachesOneRegisterOrOutput : Prop :=
  ∀ (s : State) (o : Fin 16) (v : Nat),
    (o.val ≤ 6 → regRead (hostRegWrite s o v) o = BitVec.ofNat 15 v) ∧
    (∀ p : Fin 16, p ≠ o ∨ 7 ≤ o.val → regRead (hostRegWrite s o v) p = regRead s p) ∧
    (∀ k : Fin 8, o.val = 7 + k.val → hostGetOutput (hostRegWrite s o v) k.val = BitVec.ofNat 15 v) ∧
    (∀ k : Nat, o.val ≠ 7 + k → hostGetOutput (hostRegWrite s o v) k = hostGetOutput s k) ∧
    (o.val = 15 → hostRegWrite s o v = s) ∧
    (hostRegWrite s o v).inp = s.inp ∧ (hostRegWrite s o v).IR = s.IR ∧ (hostRegWrite s o v).cycles = s.cycles ∧
    (hostRegWrite s o v).erasable = s.erasable ∧ (hostRegWrite s o v).fixed = s.fixed

/-- The host's channel operations: setting an input channel masks to 15 bits, changes that channel only and has no effect
for an index above 15; an output channel reads back as it is, or 0 above 15. (They are the spec's decision D12, log 16.) -/
def Obligations.HostSetsOneInputChannel : Prop :=
  ∀ (s : State) (k v : Nat),
    (∀ j : Fin 16, (hostSetInput s k v).inp[j.val] = if j.val = k then BitVec.ofNat 15 v else s.inp[j.val]) ∧
    hostSetInput s k v = { s with inp := (hostSetInput s k v).inp } ∧
    (15 < k → hostSetInput s k v = s ∧ hostGetOutput s k = 0) ∧
    ∀ h : k < 16, hostGetOutput s k = s.out[k]

/-- The test-only accessors reach every cell of both arrays, whatever EB, FB and the register file hold: a setter masks to
15 bits and changes only its cell; out of range a getter reads 0 and a setter has no effect. (Masking and the range rule
are the spec's decisions D16 and D24: log 19, log 23.) -/
def Obligations.BankAccessorsBypassTheDecode : Prop :=
  ∀ (s : State) (b off i v : Nat), s.Inv →
    (∀ b' off', getErasable (setErasable s b off v) b' off' =
      if b' = b ∧ off' = off ∧ b < 2 ∧ off < 1024 then BitVec.ofNat 15 v else getErasable s b' off') ∧
    (∀ i', getFixed (setFixed s i v) i' = if i' = i ∧ i < 36864 then BitVec.ofNat 15 v else getFixed s i') ∧
    (¬(b < 2 ∧ off < 1024) → getErasable s b off = 0 ∧ setErasable s b off v = s) ∧
    (¬i < 36864 → getFixed s i = 0 ∧ setFixed s i v = s) ∧
    setErasable s b off v = { s with erasable := (setErasable s b off v).erasable } ∧
    setFixed s i v = { s with fixed := (setFixed s i v).fixed }

/-- R80, R81. The ROM loader: word j of a file it can open is the big-endian pair of bytes 2j and 2j + 1 masked to 15 bits,
and goes to fixed[j], which is bank j div 1024, offset j mod 1024; an odd final byte and the bytes past fixed memory are
ignored, the rest of fixed memory is as it was, nothing else changes, and it reports success. Of a file that cannot be
opened it reports failure and changes nothing. -/
def Obligations.RomLoaderFillsFixedMemoryInOrder : Prop :=
  (∀ s : State, loadRom s .cannotOpen = (s, .failure)) ∧
    ∀ (s : State) (image : List (BitVec 8)), s.Inv →
      (loadRom s (.bytes image)).2 = .success ∧
      (loadRom s (.bytes image)).1 = { s with fixed := (loadRom s (.bytes image)).1.fixed } ∧
      (∀ j : Fin 36864, (loadRom s (.bytes image)).1.readFixed j =
        if h : 2 * j.val + 1 < image.length then
          BitVec.ofNat 15 (256 * image[2 * j.val].toNat + image[2 * j.val + 1].toNat)
        else s.readFixed j) ∧
      ∀ j : Fin 36864, fixedIndex ⟨j.val / 1024, by omega⟩ ⟨j.val % 1024, by omega⟩ = j

/-- Erasable bank isolation (the source's own property, 95_test_vectors.md W11): with different values at one offset of the
two banks, a read returns the value of the bank that EB currently selects, by bit 0 for the lower half and bit 1 for the
upper; switching EB changes what the next read sees. (The split into halves is the spec's decision D1, log 5; the host's
ports are D11 and D16, log 15 and log 19.) -/
def Obligations.ErasableBanksAreIsolated : Prop :=
  ∀ (s : State) (off v0 v1 eb : Nat), s.Inv → 0o20 ≤ off → off ≤ 0o1777 →
    hostRead (hostRegWrite (setErasable (setErasable s 0 off v0) 1 off v1) 3 eb) off =
      if (if off ≤ 0o777 then eb.testBit 0 else eb.testBit 1) then BitVec.ofNat 15 v1 else BitVec.ofNat 15 v0

/-- Code at addresses 0..0o17, which the spec derives (70_reset_and_hazards.md section 3): the unified write cannot place
it, setErasable can, and a data read of the address still returns the register file's value. (Which cell a fetch there
reads is the spec's decisions D1 and D6: log 5, log 10. That setErasable masks to 15 bits is its decision D16, log 19.) -/
def Obligations.CodeBelowOctalTwentyIsPlacedBySetErasable : Prop :=
  ∀ (s : State) (n v : Nat), s.Inv → n ≤ 0o17 →
    hostWrite s n v = s ∧
    fetch (setErasable s (if s.EB.getLsbD 0 then 1 else 0) n v) n = BitVec.ofNat 15 v ∧
    memRead (setErasable s (if s.EB.getLsbD 0 then 1 else 0) n v) n = regRead s (Fin.ofNat 16 n)
end

