-- ==== Sys2Proof/Laws/Alu.lean ====
section
/-! SUPPORT. One spec lemma per function of the word-arithmetic unit, as arithmetic on naturals. -/

namespace Sys2Proof.Machine

@[simp] theorem aluNormalize_toNat (n : Nat) : (aluNormalize n).toNat = n % 32768 := by
  simp [aluNormalize]

/-- On a 15-bit word, normalize is the identity (R122). -/
@[simp] theorem aluNormalize_word (w : Word) : aluNormalize w.toNat = w := by
  simp [aluNormalize]

/-- negate subtracts from `0o77777` (R124). -/
theorem aluNegate_toNat (w : Word) : (aluNegate w).toNat = 32767 - w.toNat := by
  have := w.isLt
  simp only [aluNegate, aluNormalize_toNat, BitVec.toNat_not]
  omega

/-- The end-around carry in one line: without a carry out the sum, with one the sum less 2^15 - 1 (R125). -/
theorem aluAdd_toNat (a b : Word) :
    (aluAdd a b).toNat = if a.toNat + b.toNat < 32768 then a.toNat + b.toNat else a.toNat + b.toNat - 32767 := by
  have := a.isLt
  have := b.isLt
  simp only [aluAdd, aluNormalize_toNat]
  split <;> omega

/-- The sign test compares with 2^14 (R123). -/
theorem isNegative_eq (w : Word) : isNegative w = decide (16384 ≤ w.toNat) := by
  have hw := w.isLt
  simp only [isNegative, BitVec.getLsbD, Nat.testBit_eq_decide_div_mod_eq, decide_eq_decide]
  omega

/-- The signed value, by the size of the word (R121). -/
theorem val_eq (w : Word) : val w = if w.toNat < 16384 then (w.toNat : Int) else (w.toNat : Int) - 32767 := by
  have h := isNegative_eq w
  simp only [isNegative] at h
  simp only [val, h, decide_eq_true_eq]
  split <;> split <;> omega

/-- The new address field is the low 12 bits of the ALU's sum (R201). -/
theorem indexField_toNat (f : AddrField) (off : Word) :
    (indexField f off).toNat = (aluAdd (f.setWidth 15) off).toNat % 4096 := by
  simp [indexField]

end Sys2Proof.Machine
end

