-- ==== Sys2Proof/Laws/Memory.lean ====
section
/-! SUPPORT. The laws of one memory array: reads after writes, and that a write keeps the canonical form. -/

namespace Sys2Proof.Machine

/-- The canonical form of a nonempty list, as a conjunction. -/
theorem Memory.wfFrom_cons (size lo k : Nat) (w : Word) (m : Memory) :
    Memory.wfFrom size lo ((k, w) :: m) = true ↔
      lo ≤ k ∧ k < size ∧ w ≠ unlistedWord ∧ Memory.wfFrom size (k + 1) m = true := by
  simp [Memory.wfFrom, and_assoc]

/-- A canonical form from `lo` on is one from any lower index on. -/
theorem Memory.wfFrom_mono {size lo lo' : Nat} {m : Memory} (h : lo' ≤ lo) (hm : Memory.wfFrom size lo m = true) :
    Memory.wfFrom size lo' m = true := by
  cases m with
  | nil => rfl
  | cons c m =>
    obtain ⟨hk, rest⟩ := (Memory.wfFrom_cons ..).mp hm
    exact (Memory.wfFrom_cons ..).mpr ⟨by omega, rest⟩

/-- Below the first index of a canonical list, every cell is unlisted. -/
theorem Memory.read_of_lt {size lo i : Nat} {m : Memory} (hm : Memory.wfFrom size lo m = true) (hi : i < lo) :
    m.read i = unlistedWord := by
  induction m generalizing lo with
  | nil => rfl
  | cons c m ih =>
    obtain ⟨hk, -, -, rest⟩ := (Memory.wfFrom_cons ..).mp hm
    have hne : c.1 ≠ i := by omega
    simp only [Memory.read, hne, if_false]
    exact ih rest (by omega)

/-- A write leaves every other cell alone; no canonical form is needed. -/
theorem Memory.read_write_of_ne {i j : Nat} (m : Memory) (v : Word) (h : j ≠ i) : (m.write i v).read j = m.read j := by
  induction m with
  | nil =>
    unfold Memory.write
    split <;> simp [Memory.read, h.symm]
  | cons c m ih =>
    unfold Memory.write
    split
    · split <;> simp [Memory.read, h.symm]
    · split
      · next hik =>
        subst hik
        split <;> simp [Memory.read, h.symm]
      · simp only [Memory.read, ih]

/-- A read after a write to the same cell gives the value written, in a canonical list. -/
theorem Memory.read_write_same {size lo i : Nat} {m : Memory} (v : Word) (hm : Memory.wfFrom size lo m = true) :
    (m.write i v).read i = v := by
  induction m generalizing lo with
  | nil =>
    unfold Memory.write
    split
    · next hv => rw [hv]; rfl
    · simp [Memory.read]
  | cons c m ih =>
    obtain ⟨-, -, -, rest⟩ := (Memory.wfFrom_cons ..).mp hm
    unfold Memory.write
    split
    · next hlt =>
      split
      · next hv =>
        have hne : c.1 ≠ i := by omega
        simp only [Memory.read, hne, if_false, hv]
        exact Memory.read_of_lt rest (by omega)
      · simp [Memory.read]
    · split
      · next hik =>
        split
        · next hv =>
          rw [hv]
          exact Memory.read_of_lt rest (by omega)
        · simp [Memory.read]
      · next hne =>
        simp only [Memory.read, Ne.symm hne, if_false]
        exact ih rest

/-- A write at or above `lo` and below `size` keeps the canonical form from `lo` on. -/
theorem Memory.wfFrom_write {size lo i : Nat} {m : Memory} (v : Word) (hm : Memory.wfFrom size lo m = true)
    (hlo : lo ≤ i) (hi : i < size) : Memory.wfFrom size lo (m.write i v) = true := by
  induction m generalizing lo with
  | nil =>
    unfold Memory.write
    split
    · rfl
    · next hv => exact (Memory.wfFrom_cons ..).mpr ⟨hlo, hi, hv, rfl⟩
  | cons c m ih =>
    obtain ⟨hk, hks, hw, rest⟩ := (Memory.wfFrom_cons ..).mp hm
    unfold Memory.write
    split
    · next hlt =>
      split
      · exact hm
      · next hv =>
        exact (Memory.wfFrom_cons ..).mpr
          ⟨hlo, hi, hv, (Memory.wfFrom_cons ..).mpr ⟨by omega, hks, hw, rest⟩⟩
    · split
      · next hik =>
        split
        · exact Memory.wfFrom_mono (by omega) rest
        · next hv => exact (Memory.wfFrom_cons ..).mpr ⟨hlo, hi, hv, hik ▸ rest⟩
      · next hlt hne => exact (Memory.wfFrom_cons ..).mpr ⟨hk, hks, hw, ih rest (by omega)⟩

/-- The empty list is in canonical form. -/
@[simp] theorem Memory.wf_nil (size : Nat) : Memory.wf size [] = true := rfl

/-- An empty array reads as unlisted everywhere. -/
@[simp] theorem Memory.read_nil (i : Nat) : Memory.read [] i = unlistedWord := rfl

/-- Every write inside the array keeps the canonical form. -/
theorem Memory.wf_write {size i : Nat} {m : Memory} (v : Word) (hm : m.wf size = true) (hi : i < size) :
    (m.write i v).wf size = true :=
  Memory.wfFrom_write v hm (Nat.zero_le i) hi

/-- A read after a write, in an array in canonical form. -/
theorem Memory.read_write {size i j : Nat} {m : Memory} (v : Word) (hm : m.wf size = true) :
    (m.write i v).read j = if j = i then v else m.read j := by
  split
  · next h => subst h; exact Memory.read_write_same v hm
  · next h => exact Memory.read_write_of_ne m v h

end Sys2Proof.Machine
end

