-- ==== Sys2Proof/Laws/State.lean ====
section
/-! SUPPORT. One lemma per field per update of State, true by rfl: first the setters, then the step's phases, the two cell
writes and the unified data write. -/

namespace Sys2Proof.Machine

variable (s : State)

/-! ### `setA` -/

@[simp] theorem State.setA_A (v : Word) : (s.setA v).A = v := rfl
@[simp] theorem State.setA_L (v : Word) : (s.setA v).L = s.L := rfl
@[simp] theorem State.setA_Q (v : Word) : (s.setA v).Q = s.Q := rfl
@[simp] theorem State.setA_EB (v : Word) : (s.setA v).EB = s.EB := rfl
@[simp] theorem State.setA_FB (v : Word) : (s.setA v).FB = s.FB := rfl
@[simp] theorem State.setA_Z (v : Word) : (s.setA v).Z = s.Z := rfl
@[simp] theorem State.setA_BB (v : Word) : (s.setA v).BB = s.BB := rfl
@[simp] theorem State.setA_inp (v : Word) : (s.setA v).inp = s.inp := rfl
@[simp] theorem State.setA_out (v : Word) : (s.setA v).out = s.out := rfl
@[simp] theorem State.setA_IR (v : Word) : (s.setA v).IR = s.IR := rfl
@[simp] theorem State.setA_cycles (v : Word) : (s.setA v).cycles = s.cycles := rfl
@[simp] theorem State.setA_erasable (v : Word) : (s.setA v).erasable = s.erasable := rfl
@[simp] theorem State.setA_fixed (v : Word) : (s.setA v).fixed = s.fixed := rfl

/-! ### `setL` -/

@[simp] theorem State.setL_A (v : Word) : (s.setL v).A = s.A := rfl
@[simp] theorem State.setL_L (v : Word) : (s.setL v).L = v := rfl
@[simp] theorem State.setL_Q (v : Word) : (s.setL v).Q = s.Q := rfl
@[simp] theorem State.setL_EB (v : Word) : (s.setL v).EB = s.EB := rfl
@[simp] theorem State.setL_FB (v : Word) : (s.setL v).FB = s.FB := rfl
@[simp] theorem State.setL_Z (v : Word) : (s.setL v).Z = s.Z := rfl
@[simp] theorem State.setL_BB (v : Word) : (s.setL v).BB = s.BB := rfl
@[simp] theorem State.setL_inp (v : Word) : (s.setL v).inp = s.inp := rfl
@[simp] theorem State.setL_out (v : Word) : (s.setL v).out = s.out := rfl
@[simp] theorem State.setL_IR (v : Word) : (s.setL v).IR = s.IR := rfl
@[simp] theorem State.setL_cycles (v : Word) : (s.setL v).cycles = s.cycles := rfl
@[simp] theorem State.setL_erasable (v : Word) : (s.setL v).erasable = s.erasable := rfl
@[simp] theorem State.setL_fixed (v : Word) : (s.setL v).fixed = s.fixed := rfl

/-! ### `setQ` -/

@[simp] theorem State.setQ_A (v : Word) : (s.setQ v).A = s.A := rfl
@[simp] theorem State.setQ_L (v : Word) : (s.setQ v).L = s.L := rfl
@[simp] theorem State.setQ_Q (v : Word) : (s.setQ v).Q = v := rfl
@[simp] theorem State.setQ_EB (v : Word) : (s.setQ v).EB = s.EB := rfl
@[simp] theorem State.setQ_FB (v : Word) : (s.setQ v).FB = s.FB := rfl
@[simp] theorem State.setQ_Z (v : Word) : (s.setQ v).Z = s.Z := rfl
@[simp] theorem State.setQ_BB (v : Word) : (s.setQ v).BB = s.BB := rfl
@[simp] theorem State.setQ_inp (v : Word) : (s.setQ v).inp = s.inp := rfl
@[simp] theorem State.setQ_out (v : Word) : (s.setQ v).out = s.out := rfl
@[simp] theorem State.setQ_IR (v : Word) : (s.setQ v).IR = s.IR := rfl
@[simp] theorem State.setQ_cycles (v : Word) : (s.setQ v).cycles = s.cycles := rfl
@[simp] theorem State.setQ_erasable (v : Word) : (s.setQ v).erasable = s.erasable := rfl
@[simp] theorem State.setQ_fixed (v : Word) : (s.setQ v).fixed = s.fixed := rfl

/-! ### `setEB` -/

@[simp] theorem State.setEB_A (v : Word) : (s.setEB v).A = s.A := rfl
@[simp] theorem State.setEB_L (v : Word) : (s.setEB v).L = s.L := rfl
@[simp] theorem State.setEB_Q (v : Word) : (s.setEB v).Q = s.Q := rfl
@[simp] theorem State.setEB_EB (v : Word) : (s.setEB v).EB = v := rfl
@[simp] theorem State.setEB_FB (v : Word) : (s.setEB v).FB = s.FB := rfl
@[simp] theorem State.setEB_Z (v : Word) : (s.setEB v).Z = s.Z := rfl
@[simp] theorem State.setEB_BB (v : Word) : (s.setEB v).BB = s.BB := rfl
@[simp] theorem State.setEB_inp (v : Word) : (s.setEB v).inp = s.inp := rfl
@[simp] theorem State.setEB_out (v : Word) : (s.setEB v).out = s.out := rfl
@[simp] theorem State.setEB_IR (v : Word) : (s.setEB v).IR = s.IR := rfl
@[simp] theorem State.setEB_cycles (v : Word) : (s.setEB v).cycles = s.cycles := rfl
@[simp] theorem State.setEB_erasable (v : Word) : (s.setEB v).erasable = s.erasable := rfl
@[simp] theorem State.setEB_fixed (v : Word) : (s.setEB v).fixed = s.fixed := rfl

/-! ### `setFB` -/

@[simp] theorem State.setFB_A (v : Word) : (s.setFB v).A = s.A := rfl
@[simp] theorem State.setFB_L (v : Word) : (s.setFB v).L = s.L := rfl
@[simp] theorem State.setFB_Q (v : Word) : (s.setFB v).Q = s.Q := rfl
@[simp] theorem State.setFB_EB (v : Word) : (s.setFB v).EB = s.EB := rfl
@[simp] theorem State.setFB_FB (v : Word) : (s.setFB v).FB = v := rfl
@[simp] theorem State.setFB_Z (v : Word) : (s.setFB v).Z = s.Z := rfl
@[simp] theorem State.setFB_BB (v : Word) : (s.setFB v).BB = s.BB := rfl
@[simp] theorem State.setFB_inp (v : Word) : (s.setFB v).inp = s.inp := rfl
@[simp] theorem State.setFB_out (v : Word) : (s.setFB v).out = s.out := rfl
@[simp] theorem State.setFB_IR (v : Word) : (s.setFB v).IR = s.IR := rfl
@[simp] theorem State.setFB_cycles (v : Word) : (s.setFB v).cycles = s.cycles := rfl
@[simp] theorem State.setFB_erasable (v : Word) : (s.setFB v).erasable = s.erasable := rfl
@[simp] theorem State.setFB_fixed (v : Word) : (s.setFB v).fixed = s.fixed := rfl

/-! ### `setZ` -/

@[simp] theorem State.setZ_A (v : Word) : (s.setZ v).A = s.A := rfl
@[simp] theorem State.setZ_L (v : Word) : (s.setZ v).L = s.L := rfl
@[simp] theorem State.setZ_Q (v : Word) : (s.setZ v).Q = s.Q := rfl
@[simp] theorem State.setZ_EB (v : Word) : (s.setZ v).EB = s.EB := rfl
@[simp] theorem State.setZ_FB (v : Word) : (s.setZ v).FB = s.FB := rfl
@[simp] theorem State.setZ_Z (v : Word) : (s.setZ v).Z = v := rfl
@[simp] theorem State.setZ_BB (v : Word) : (s.setZ v).BB = s.BB := rfl
@[simp] theorem State.setZ_inp (v : Word) : (s.setZ v).inp = s.inp := rfl
@[simp] theorem State.setZ_out (v : Word) : (s.setZ v).out = s.out := rfl
@[simp] theorem State.setZ_IR (v : Word) : (s.setZ v).IR = s.IR := rfl
@[simp] theorem State.setZ_cycles (v : Word) : (s.setZ v).cycles = s.cycles := rfl
@[simp] theorem State.setZ_erasable (v : Word) : (s.setZ v).erasable = s.erasable := rfl
@[simp] theorem State.setZ_fixed (v : Word) : (s.setZ v).fixed = s.fixed := rfl

/-! ### `setBB` -/

@[simp] theorem State.setBB_A (v : Word) : (s.setBB v).A = s.A := rfl
@[simp] theorem State.setBB_L (v : Word) : (s.setBB v).L = s.L := rfl
@[simp] theorem State.setBB_Q (v : Word) : (s.setBB v).Q = s.Q := rfl
@[simp] theorem State.setBB_EB (v : Word) : (s.setBB v).EB = s.EB := rfl
@[simp] theorem State.setBB_FB (v : Word) : (s.setBB v).FB = s.FB := rfl
@[simp] theorem State.setBB_Z (v : Word) : (s.setBB v).Z = s.Z := rfl
@[simp] theorem State.setBB_BB (v : Word) : (s.setBB v).BB = v := rfl
@[simp] theorem State.setBB_inp (v : Word) : (s.setBB v).inp = s.inp := rfl
@[simp] theorem State.setBB_out (v : Word) : (s.setBB v).out = s.out := rfl
@[simp] theorem State.setBB_IR (v : Word) : (s.setBB v).IR = s.IR := rfl
@[simp] theorem State.setBB_cycles (v : Word) : (s.setBB v).cycles = s.cycles := rfl
@[simp] theorem State.setBB_erasable (v : Word) : (s.setBB v).erasable = s.erasable := rfl
@[simp] theorem State.setBB_fixed (v : Word) : (s.setBB v).fixed = s.fixed := rfl

/-! ### `setInp` -/

@[simp] theorem State.setInp_A (k : Fin 16) (v : Word) : (s.setInp k v).A = s.A := rfl
@[simp] theorem State.setInp_L (k : Fin 16) (v : Word) : (s.setInp k v).L = s.L := rfl
@[simp] theorem State.setInp_Q (k : Fin 16) (v : Word) : (s.setInp k v).Q = s.Q := rfl
@[simp] theorem State.setInp_EB (k : Fin 16) (v : Word) : (s.setInp k v).EB = s.EB := rfl
@[simp] theorem State.setInp_FB (k : Fin 16) (v : Word) : (s.setInp k v).FB = s.FB := rfl
@[simp] theorem State.setInp_Z (k : Fin 16) (v : Word) : (s.setInp k v).Z = s.Z := rfl
@[simp] theorem State.setInp_BB (k : Fin 16) (v : Word) : (s.setInp k v).BB = s.BB := rfl
@[simp] theorem State.setInp_inp (k : Fin 16) (v : Word) : (s.setInp k v).inp = s.inp.set k v := rfl
@[simp] theorem State.setInp_out (k : Fin 16) (v : Word) : (s.setInp k v).out = s.out := rfl
@[simp] theorem State.setInp_IR (k : Fin 16) (v : Word) : (s.setInp k v).IR = s.IR := rfl
@[simp] theorem State.setInp_cycles (k : Fin 16) (v : Word) : (s.setInp k v).cycles = s.cycles := rfl
@[simp] theorem State.setInp_erasable (k : Fin 16) (v : Word) : (s.setInp k v).erasable = s.erasable := rfl
@[simp] theorem State.setInp_fixed (k : Fin 16) (v : Word) : (s.setInp k v).fixed = s.fixed := rfl

/-! ### `setOut` -/

@[simp] theorem State.setOut_A (k : Fin 16) (v : Word) : (s.setOut k v).A = s.A := rfl
@[simp] theorem State.setOut_L (k : Fin 16) (v : Word) : (s.setOut k v).L = s.L := rfl
@[simp] theorem State.setOut_Q (k : Fin 16) (v : Word) : (s.setOut k v).Q = s.Q := rfl
@[simp] theorem State.setOut_EB (k : Fin 16) (v : Word) : (s.setOut k v).EB = s.EB := rfl
@[simp] theorem State.setOut_FB (k : Fin 16) (v : Word) : (s.setOut k v).FB = s.FB := rfl
@[simp] theorem State.setOut_Z (k : Fin 16) (v : Word) : (s.setOut k v).Z = s.Z := rfl
@[simp] theorem State.setOut_BB (k : Fin 16) (v : Word) : (s.setOut k v).BB = s.BB := rfl
@[simp] theorem State.setOut_inp (k : Fin 16) (v : Word) : (s.setOut k v).inp = s.inp := rfl
@[simp] theorem State.setOut_out (k : Fin 16) (v : Word) : (s.setOut k v).out = s.out.set k v := rfl
@[simp] theorem State.setOut_IR (k : Fin 16) (v : Word) : (s.setOut k v).IR = s.IR := rfl
@[simp] theorem State.setOut_cycles (k : Fin 16) (v : Word) : (s.setOut k v).cycles = s.cycles := rfl
@[simp] theorem State.setOut_erasable (k : Fin 16) (v : Word) : (s.setOut k v).erasable = s.erasable := rfl
@[simp] theorem State.setOut_fixed (k : Fin 16) (v : Word) : (s.setOut k v).fixed = s.fixed := rfl

/-! ### `setIR` -/

@[simp] theorem State.setIR_A (v : Word) : (s.setIR v).A = s.A := rfl
@[simp] theorem State.setIR_L (v : Word) : (s.setIR v).L = s.L := rfl
@[simp] theorem State.setIR_Q (v : Word) : (s.setIR v).Q = s.Q := rfl
@[simp] theorem State.setIR_EB (v : Word) : (s.setIR v).EB = s.EB := rfl
@[simp] theorem State.setIR_FB (v : Word) : (s.setIR v).FB = s.FB := rfl
@[simp] theorem State.setIR_Z (v : Word) : (s.setIR v).Z = s.Z := rfl
@[simp] theorem State.setIR_BB (v : Word) : (s.setIR v).BB = s.BB := rfl
@[simp] theorem State.setIR_inp (v : Word) : (s.setIR v).inp = s.inp := rfl
@[simp] theorem State.setIR_out (v : Word) : (s.setIR v).out = s.out := rfl
@[simp] theorem State.setIR_IR (v : Word) : (s.setIR v).IR = v := rfl
@[simp] theorem State.setIR_cycles (v : Word) : (s.setIR v).cycles = s.cycles := rfl
@[simp] theorem State.setIR_erasable (v : Word) : (s.setIR v).erasable = s.erasable := rfl
@[simp] theorem State.setIR_fixed (v : Word) : (s.setIR v).fixed = s.fixed := rfl

/-! ### `setCycles` -/

@[simp] theorem State.setCycles_A (n : Nat) : (s.setCycles n).A = s.A := rfl
@[simp] theorem State.setCycles_L (n : Nat) : (s.setCycles n).L = s.L := rfl
@[simp] theorem State.setCycles_Q (n : Nat) : (s.setCycles n).Q = s.Q := rfl
@[simp] theorem State.setCycles_EB (n : Nat) : (s.setCycles n).EB = s.EB := rfl
@[simp] theorem State.setCycles_FB (n : Nat) : (s.setCycles n).FB = s.FB := rfl
@[simp] theorem State.setCycles_Z (n : Nat) : (s.setCycles n).Z = s.Z := rfl
@[simp] theorem State.setCycles_BB (n : Nat) : (s.setCycles n).BB = s.BB := rfl
@[simp] theorem State.setCycles_inp (n : Nat) : (s.setCycles n).inp = s.inp := rfl
@[simp] theorem State.setCycles_out (n : Nat) : (s.setCycles n).out = s.out := rfl
@[simp] theorem State.setCycles_IR (n : Nat) : (s.setCycles n).IR = s.IR := rfl
@[simp] theorem State.setCycles_cycles (n : Nat) : (s.setCycles n).cycles = n := rfl
@[simp] theorem State.setCycles_erasable (n : Nat) : (s.setCycles n).erasable = s.erasable := rfl
@[simp] theorem State.setCycles_fixed (n : Nat) : (s.setCycles n).fixed = s.fixed := rfl

/-! ### `setErasableMem` -/

@[simp] theorem State.setErasableMem_A (m : Memory) : (s.setErasableMem m).A = s.A := rfl
@[simp] theorem State.setErasableMem_L (m : Memory) : (s.setErasableMem m).L = s.L := rfl
@[simp] theorem State.setErasableMem_Q (m : Memory) : (s.setErasableMem m).Q = s.Q := rfl
@[simp] theorem State.setErasableMem_EB (m : Memory) : (s.setErasableMem m).EB = s.EB := rfl
@[simp] theorem State.setErasableMem_FB (m : Memory) : (s.setErasableMem m).FB = s.FB := rfl
@[simp] theorem State.setErasableMem_Z (m : Memory) : (s.setErasableMem m).Z = s.Z := rfl
@[simp] theorem State.setErasableMem_BB (m : Memory) : (s.setErasableMem m).BB = s.BB := rfl
@[simp] theorem State.setErasableMem_inp (m : Memory) : (s.setErasableMem m).inp = s.inp := rfl
@[simp] theorem State.setErasableMem_out (m : Memory) : (s.setErasableMem m).out = s.out := rfl
@[simp] theorem State.setErasableMem_IR (m : Memory) : (s.setErasableMem m).IR = s.IR := rfl
@[simp] theorem State.setErasableMem_cycles (m : Memory) : (s.setErasableMem m).cycles = s.cycles := rfl
@[simp] theorem State.setErasableMem_erasable (m : Memory) : (s.setErasableMem m).erasable = m := rfl
@[simp] theorem State.setErasableMem_fixed (m : Memory) : (s.setErasableMem m).fixed = s.fixed := rfl

/-! ### `setFixedMem` -/

@[simp] theorem State.setFixedMem_A (m : Memory) : (s.setFixedMem m).A = s.A := rfl
@[simp] theorem State.setFixedMem_L (m : Memory) : (s.setFixedMem m).L = s.L := rfl
@[simp] theorem State.setFixedMem_Q (m : Memory) : (s.setFixedMem m).Q = s.Q := rfl
@[simp] theorem State.setFixedMem_EB (m : Memory) : (s.setFixedMem m).EB = s.EB := rfl
@[simp] theorem State.setFixedMem_FB (m : Memory) : (s.setFixedMem m).FB = s.FB := rfl
@[simp] theorem State.setFixedMem_Z (m : Memory) : (s.setFixedMem m).Z = s.Z := rfl
@[simp] theorem State.setFixedMem_BB (m : Memory) : (s.setFixedMem m).BB = s.BB := rfl
@[simp] theorem State.setFixedMem_inp (m : Memory) : (s.setFixedMem m).inp = s.inp := rfl
@[simp] theorem State.setFixedMem_out (m : Memory) : (s.setFixedMem m).out = s.out := rfl
@[simp] theorem State.setFixedMem_IR (m : Memory) : (s.setFixedMem m).IR = s.IR := rfl
@[simp] theorem State.setFixedMem_cycles (m : Memory) : (s.setFixedMem m).cycles = s.cycles := rfl
@[simp] theorem State.setFixedMem_erasable (m : Memory) : (s.setFixedMem m).erasable = s.erasable := rfl
@[simp] theorem State.setFixedMem_fixed (m : Memory) : (s.setFixedMem m).fixed = m := rfl

/-! ### `recordPhase` -/

@[simp] theorem recordPhase_A (w : Word) : (recordPhase w s).A = s.A := rfl
@[simp] theorem recordPhase_L (w : Word) : (recordPhase w s).L = s.L := rfl
@[simp] theorem recordPhase_Q (w : Word) : (recordPhase w s).Q = s.Q := rfl
@[simp] theorem recordPhase_EB (w : Word) : (recordPhase w s).EB = s.EB := rfl
@[simp] theorem recordPhase_FB (w : Word) : (recordPhase w s).FB = s.FB := rfl
@[simp] theorem recordPhase_Z (w : Word) : (recordPhase w s).Z = s.Z := rfl
@[simp] theorem recordPhase_BB (w : Word) : (recordPhase w s).BB = s.BB := rfl
@[simp] theorem recordPhase_inp (w : Word) : (recordPhase w s).inp = s.inp := rfl
@[simp] theorem recordPhase_out (w : Word) : (recordPhase w s).out = s.out := rfl
@[simp] theorem recordPhase_IR (w : Word) : (recordPhase w s).IR = w := rfl
@[simp] theorem recordPhase_cycles (w : Word) : (recordPhase w s).cycles = s.cycles := rfl
@[simp] theorem recordPhase_erasable (w : Word) : (recordPhase w s).erasable = s.erasable := rfl
@[simp] theorem recordPhase_fixed (w : Word) : (recordPhase w s).fixed = s.fixed := rfl

/-! ### `incrPhase` -/

@[simp] theorem incrPhase_A : (incrPhase s).A = s.A := rfl
@[simp] theorem incrPhase_L : (incrPhase s).L = s.L := rfl
@[simp] theorem incrPhase_Q : (incrPhase s).Q = s.Q := rfl
@[simp] theorem incrPhase_EB : (incrPhase s).EB = s.EB := rfl
@[simp] theorem incrPhase_FB : (incrPhase s).FB = s.FB := rfl
@[simp] theorem incrPhase_Z : (incrPhase s).Z = aluNormalize (s.Z.toNat + 1) := rfl
@[simp] theorem incrPhase_BB : (incrPhase s).BB = s.BB := rfl
@[simp] theorem incrPhase_inp : (incrPhase s).inp = s.inp := rfl
@[simp] theorem incrPhase_out : (incrPhase s).out = s.out := rfl
@[simp] theorem incrPhase_IR : (incrPhase s).IR = s.IR := rfl
@[simp] theorem incrPhase_cycles : (incrPhase s).cycles = s.cycles := rfl
@[simp] theorem incrPhase_erasable : (incrPhase s).erasable = s.erasable := rfl
@[simp] theorem incrPhase_fixed : (incrPhase s).fixed = s.fixed := rfl

/-! ### `countPhase` -/

@[simp] theorem countPhase_A : (countPhase s).A = s.A := rfl
@[simp] theorem countPhase_L : (countPhase s).L = s.L := rfl
@[simp] theorem countPhase_Q : (countPhase s).Q = s.Q := rfl
@[simp] theorem countPhase_EB : (countPhase s).EB = s.EB := rfl
@[simp] theorem countPhase_FB : (countPhase s).FB = s.FB := rfl
@[simp] theorem countPhase_Z : (countPhase s).Z = s.Z := rfl
@[simp] theorem countPhase_BB : (countPhase s).BB = s.BB := rfl
@[simp] theorem countPhase_inp : (countPhase s).inp = s.inp := rfl
@[simp] theorem countPhase_out : (countPhase s).out = s.out := rfl
@[simp] theorem countPhase_IR : (countPhase s).IR = s.IR := rfl
@[simp] theorem countPhase_cycles : (countPhase s).cycles = s.cycles + 1 := rfl
@[simp] theorem countPhase_erasable : (countPhase s).erasable = s.erasable := rfl
@[simp] theorem countPhase_fixed : (countPhase s).fixed = s.fixed := rfl

/-! ### `writeErasable` -/

@[simp] theorem State.writeErasable_A (b : Fin 2) (off : Fin 1024) (v : Word) :
    (s.writeErasable b off v).A = s.A := rfl
@[simp] theorem State.writeErasable_L (b : Fin 2) (off : Fin 1024) (v : Word) :
    (s.writeErasable b off v).L = s.L := rfl
@[simp] theorem State.writeErasable_Q (b : Fin 2) (off : Fin 1024) (v : Word) :
    (s.writeErasable b off v).Q = s.Q := rfl
@[simp] theorem State.writeErasable_EB (b : Fin 2) (off : Fin 1024) (v : Word) :
    (s.writeErasable b off v).EB = s.EB := rfl
@[simp] theorem State.writeErasable_FB (b : Fin 2) (off : Fin 1024) (v : Word) :
    (s.writeErasable b off v).FB = s.FB := rfl
@[simp] theorem State.writeErasable_Z (b : Fin 2) (off : Fin 1024) (v : Word) :
    (s.writeErasable b off v).Z = s.Z := rfl
@[simp] theorem State.writeErasable_BB (b : Fin 2) (off : Fin 1024) (v : Word) :
    (s.writeErasable b off v).BB = s.BB := rfl
@[simp] theorem State.writeErasable_inp (b : Fin 2) (off : Fin 1024) (v : Word) :
    (s.writeErasable b off v).inp = s.inp := rfl
@[simp] theorem State.writeErasable_out (b : Fin 2) (off : Fin 1024) (v : Word) :
    (s.writeErasable b off v).out = s.out := rfl
@[simp] theorem State.writeErasable_IR (b : Fin 2) (off : Fin 1024) (v : Word) :
    (s.writeErasable b off v).IR = s.IR := rfl
@[simp] theorem State.writeErasable_cycles (b : Fin 2) (off : Fin 1024) (v : Word) :
    (s.writeErasable b off v).cycles = s.cycles := rfl
@[simp] theorem State.writeErasable_erasable (b : Fin 2) (off : Fin 1024) (v : Word) :
    (s.writeErasable b off v).erasable = s.erasable.write (erasableIndex b off) v := rfl
@[simp] theorem State.writeErasable_fixed (b : Fin 2) (off : Fin 1024) (v : Word) :
    (s.writeErasable b off v).fixed = s.fixed := rfl

/-! ### `writeFixed` -/

@[simp] theorem State.writeFixed_A (i : Fin 36864) (v : Word) :
    (s.writeFixed i v).A = s.A := rfl
@[simp] theorem State.writeFixed_L (i : Fin 36864) (v : Word) :
    (s.writeFixed i v).L = s.L := rfl
@[simp] theorem State.writeFixed_Q (i : Fin 36864) (v : Word) :
    (s.writeFixed i v).Q = s.Q := rfl
@[simp] theorem State.writeFixed_EB (i : Fin 36864) (v : Word) :
    (s.writeFixed i v).EB = s.EB := rfl
@[simp] theorem State.writeFixed_FB (i : Fin 36864) (v : Word) :
    (s.writeFixed i v).FB = s.FB := rfl
@[simp] theorem State.writeFixed_Z (i : Fin 36864) (v : Word) :
    (s.writeFixed i v).Z = s.Z := rfl
@[simp] theorem State.writeFixed_BB (i : Fin 36864) (v : Word) :
    (s.writeFixed i v).BB = s.BB := rfl
@[simp] theorem State.writeFixed_inp (i : Fin 36864) (v : Word) :
    (s.writeFixed i v).inp = s.inp := rfl
@[simp] theorem State.writeFixed_out (i : Fin 36864) (v : Word) :
    (s.writeFixed i v).out = s.out := rfl
@[simp] theorem State.writeFixed_IR (i : Fin 36864) (v : Word) :
    (s.writeFixed i v).IR = s.IR := rfl
@[simp] theorem State.writeFixed_cycles (i : Fin 36864) (v : Word) :
    (s.writeFixed i v).cycles = s.cycles := rfl
@[simp] theorem State.writeFixed_erasable (i : Fin 36864) (v : Word) :
    (s.writeFixed i v).erasable = s.erasable := rfl
@[simp] theorem State.writeFixed_fixed (i : Fin 36864) (v : Word) :
    (s.writeFixed i v).fixed = s.fixed.write i.val v := rfl

/-! ### `memWrite`: everything but erasable memory is as before -/

/-- What the unified data write does: it writes the erasable cell the address resolves to, and otherwise nothing (R70). -/
theorem memWrite_cases (addr : Nat) (v : Word) :
    (∃ b off, resolve s addr = .erasable b off ∧ memWrite s addr v = s.writeErasable b off v) ∨
      ((∀ b off, resolve s addr ≠ .erasable b off) ∧ memWrite s addr v = s) := by
  unfold memWrite
  cases h : resolve s addr with
  | erasable b off => exact .inl ⟨b, off, rfl, rfl⟩
  | reg o => exact .inr ⟨by simp, rfl⟩
  | fixed i => exact .inr ⟨by simp, rfl⟩
  | nothing => exact .inr ⟨by simp, rfl⟩

/-- The unified data write changes no field but erasable memory. -/
theorem memWrite_eq (addr : Nat) (v : Word) :
    memWrite s addr v = s.setErasableMem (memWrite s addr v).erasable := by
  obtain ⟨b, off, -, h⟩ | ⟨-, h⟩ := memWrite_cases s addr v <;> rw [h] <;> rfl

@[simp] theorem memWrite_A (addr : Nat) (v : Word) : (memWrite s addr v).A = s.A := by
  rw [memWrite_eq]; rfl
@[simp] theorem memWrite_L (addr : Nat) (v : Word) : (memWrite s addr v).L = s.L := by
  rw [memWrite_eq]; rfl
@[simp] theorem memWrite_Q (addr : Nat) (v : Word) : (memWrite s addr v).Q = s.Q := by
  rw [memWrite_eq]; rfl
@[simp] theorem memWrite_EB (addr : Nat) (v : Word) : (memWrite s addr v).EB = s.EB := by
  rw [memWrite_eq]; rfl
@[simp] theorem memWrite_FB (addr : Nat) (v : Word) : (memWrite s addr v).FB = s.FB := by
  rw [memWrite_eq]; rfl
@[simp] theorem memWrite_Z (addr : Nat) (v : Word) : (memWrite s addr v).Z = s.Z := by
  rw [memWrite_eq]; rfl
@[simp] theorem memWrite_BB (addr : Nat) (v : Word) : (memWrite s addr v).BB = s.BB := by
  rw [memWrite_eq]; rfl
@[simp] theorem memWrite_inp (addr : Nat) (v : Word) : (memWrite s addr v).inp = s.inp := by
  rw [memWrite_eq]; rfl
@[simp] theorem memWrite_out (addr : Nat) (v : Word) : (memWrite s addr v).out = s.out := by
  rw [memWrite_eq]; rfl
@[simp] theorem memWrite_IR (addr : Nat) (v : Word) : (memWrite s addr v).IR = s.IR := by
  rw [memWrite_eq]; rfl
@[simp] theorem memWrite_cycles (addr : Nat) (v : Word) : (memWrite s addr v).cycles = s.cycles := by
  rw [memWrite_eq]; rfl
@[simp] theorem memWrite_fixed (addr : Nat) (v : Word) : (memWrite s addr v).fixed = s.fixed := by
  rw [memWrite_eq]; rfl

end Sys2Proof.Machine
end

