-- ==== Sys2Proof/Laws/Ops.lean ====
section
/-! SUPPORT. For each shared operation, once, everything it can do: the two arrays, the address decode, the data write, the
handlers and the step. -/

namespace Sys2Proof.Machine

/-! ## The two arrays -/

theorem erasableIndex_lt (b : Fin 2) (off : Fin 1024) : erasableIndex b off < Config.erasableWords := by
  have := b.isLt
  have := off.isLt
  simp only [erasableIndex, Config.bankWords, Config.erasableWords]
  omega

/-- Different cells of the erasable array have different indices. -/
theorem erasableIndex_inj {b b' : Fin 2} {off off' : Fin 1024} (h : erasableIndex b off = erasableIndex b' off') :
    b = b' ∧ off = off' := by
  have := off.isLt
  have := off'.isLt
  simp only [erasableIndex, Config.bankWords] at h
  exact ⟨Fin.ext (by omega), Fin.ext (by omega)⟩

/-- An erasable write is seen at its own cell. -/
theorem State.readErasable_writeErasable_same {s : State} (hs : s.Inv) (b : Fin 2) (off : Fin 1024) (v : Word) :
    (s.writeErasable b off v).readErasable b off = v :=
  Memory.read_write_same v hs.1

/-- An erasable write leaves every other erasable cell alone. -/
theorem State.readErasable_writeErasable_of_ne (s : State) {b b' : Fin 2} {off off' : Fin 1024} (v : Word)
    (h : ¬(b' = b ∧ off' = off)) : (s.writeErasable b off v).readErasable b' off' = s.readErasable b' off' :=
  Memory.read_write_of_ne _ v fun e => h (erasableIndex_inj e)

@[simp] theorem State.readFixed_writeErasable (s : State) (b : Fin 2) (off : Fin 1024) (v : Word) (i : Fin 36864) :
    (s.writeErasable b off v).readFixed i = s.readFixed i := rfl

@[simp] theorem State.readErasable_writeFixed (s : State) (i : Fin 36864) (v : Word) (b : Fin 2) (off : Fin 1024) :
    (s.writeFixed i v).readErasable b off = s.readErasable b off := rfl

/-- A fixed write is seen at its own cell. -/
theorem State.readFixed_writeFixed_same {s : State} (hs : s.Inv) (i : Fin 36864) (v : Word) :
    (s.writeFixed i v).readFixed i = v :=
  Memory.read_write_same v hs.2

/-- A fixed write leaves every other fixed cell alone. -/
theorem State.readFixed_writeFixed_of_ne (s : State) {i j : Fin 36864} (v : Word) (h : j ≠ i) :
    (s.writeFixed i v).readFixed j = s.readFixed j :=
  Memory.read_write_of_ne _ v fun e => h (Fin.ext e)

/-- An erasable write keeps the invariant. -/
theorem State.Inv.writeErasable {s : State} (hs : s.Inv) (b : Fin 2) (off : Fin 1024) (v : Word) :
    (s.writeErasable b off v).Inv :=
  ⟨Memory.wf_write v hs.1 (erasableIndex_lt b off), hs.2⟩

/-- A fixed write keeps the invariant. -/
theorem State.Inv.writeFixed {s : State} (hs : s.Inv) (i : Fin 36864) (v : Word) : (s.writeFixed i v).Inv :=
  ⟨hs.1, Memory.wf_write v hs.2 i.isLt⟩

/-- The invariant speaks of the two memories only. -/
theorem State.inv_congr {s t : State} (he : t.erasable = s.erasable) (hf : t.fixed = s.fixed) : t.Inv ↔ s.Inv := by
  simp only [State.Inv, he, hf]

/-! ## Address decode -/

/-- An address that resolves to an erasable cell lies in 0o20..0o1777, and the cell is the one EB selects (R63, R64). -/
theorem resolve_erasable {s : State} {addr : Nat} {b : Fin 2} {off : Fin 1024} (h : resolve s addr = .erasable b off) :
    0o20 ≤ addr ∧ addr ≤ 0o1777 ∧ b = ebank s.EB addr ∧ off = lowTenBits addr := by
  unfold resolve at h
  simp only [Config.regFileLimit, Config.erasableLimit, Config.fixedFixedLimit, Config.decodedLimit, erasableTarget] at h
  split at h
  · cases h
  · split at h
    · cases h
      exact ⟨by omega, by omega, rfl, rfl⟩
    · split at h
      · cases h
      · split at h <;> cases h

/-- Every address in 0o20..0o1777 resolves to the erasable cell EB selects (R63, R64). -/
theorem resolve_of_erasable (s : State) {addr : Nat} (h1 : 0o20 ≤ addr) (h2 : addr ≤ 0o1777) :
    resolve s addr = .erasable (ebank s.EB addr) (lowTenBits addr) := by
  unfold resolve
  rw [if_neg (by simp only [Config.regFileLimit]; omega), if_pos h2]
  rfl

/-- The decode depends on the two bank registers only. -/
theorem resolve_congr {s t : State} (he : t.EB = s.EB) (hf : t.FB = s.FB) (addr : Nat) : resolve t addr = resolve s addr := by
  simp only [resolve, erasableTarget, he, hf]

/-- The fetch decode depends on the two bank registers only. -/
theorem fetchResolve_congr {s t : State} (he : t.EB = s.EB) (hf : t.FB = s.FB) (addr : Nat) :
    fetchResolve t addr = fetchResolve s addr := by
  simp only [fetchResolve, erasableTarget, he, resolve_congr he hf]

/-- Outside the register file a data read depends on the two bank registers and the two memories only. -/
theorem memRead_congr {s t : State} (heb : t.EB = s.EB) (hfb : t.FB = s.FB) (he : t.erasable = s.erasable)
    (hf : t.fixed = s.fixed) {addr : Nat} (h : 0o20 ≤ addr) : memRead t addr = memRead s addr := by
  unfold memRead
  rw [resolve_congr heb hfb]
  cases hr : resolve s addr with
  | reg o =>
    unfold resolve erasableTarget at hr
    rw [if_neg (by simp only [Config.regFileLimit]; omega)] at hr
    split_ifs at hr
  | erasable b off => simp only [readTarget, State.readErasable, he]
  | fixed i => simp only [readTarget, State.readFixed, hf]
  | nothing => rfl

/-- A fetch depends on the two bank registers and the two memories only. -/
theorem fetch_congr {s t : State} (heb : t.EB = s.EB) (hfb : t.FB = s.FB) (he : t.erasable = s.erasable)
    (hf : t.fixed = s.fixed) (addr : Nat) : fetch t addr = fetch s addr := by
  by_cases h : addr ≤ Config.erasableLimit
  · simp only [fetch, fetchResolve, if_pos h, erasableTarget, heb, readTarget, State.readErasable, he]
  · simp only [fetch, fetchResolve, if_neg h]
    exact memRead_congr heb hfb he hf (by simp only [Config.erasableLimit] at h; omega)

/-! ## The unified data write -/

/-- The data write keeps the invariant. -/
theorem State.Inv.memWrite {s : State} (hs : s.Inv) (addr : Nat) (v : Word) : (memWrite s addr v).Inv := by
  obtain ⟨b, off, -, h⟩ | ⟨-, h⟩ := memWrite_cases s addr v <;> rw [h]
  · exact hs.writeErasable b off v
  · exact hs

/-- The data write changes no cell but the erasable one its address resolves to. -/
theorem sameCellsBut_memWrite (s : State) (addr : Nat) (v : Word) :
    SameCellsBut (resolve s addr) s (memWrite s addr v) := by
  obtain ⟨b, off, hr, h⟩ | ⟨-, h⟩ := memWrite_cases s addr v <;> rw [h]
  · refine ⟨fun _ => rfl, fun b' off' hne => ?_⟩
    exact s.readErasable_writeErasable_of_ne v fun e => hne (by rw [hr, e.1, e.2])
  · exact ⟨fun _ => rfl, fun _ _ _ => rfl⟩

/-! ## The handlers -/

theorem exec_tc (a : AddrField) (s : State) : exec (.tc a) s = .next (s.setZ (aluNormalize a.toNat)) := rfl

theorem exec_xch (a : AddrField) (s : State) :
    exec (.xch a) s = .next ((memWrite s a.toNat s.A).setA (memRead s a.toNat)) := rfl

theorem exec_ts (a : AddrField) (s : State) : exec (.ts a) s = .next (memWrite s a.toNat s.A) := rfl

theorem exec_ca (a : AddrField) (s : State) : exec (.ca a) s = .next (s.setA (memRead s a.toNat)) := rfl

theorem exec_ccs (a : AddrField) (s : State) :
    exec (.ccs a) s = .next ((s.setA (aluNegate (memRead s a.toNat))).setZ
      (s.Z + skipOf (ccsClass (aluNegate (memRead s a.toNat))))) := rfl

theorem exec_index (a : AddrField) (s : State) :
    exec (.index a) s = .next (memWrite s s.Z.toNat (indexedWord (memRead s s.Z.toNat) (memRead s a.toNat))) := rfl

theorem exec_op6 (a : AddrField) (s : State) : exec (.op6 a) s = .next s := rfl

theorem exec_op7 (a : AddrField) (s : State) : exec (.op7 a) s = .next s := rfl

/-- What any handler can do: at most one data write, then new values for A and Z; nothing else. -/
theorem exec_cases {i : Instr} {s t : State} (h : exec i s = .next t) :
    (∃ a z, t = (s.setA a).setZ z) ∨ ∃ addr v a, t = (memWrite s addr v).setA a := by
  cases i with
  | tc a => cases h; exact .inl ⟨s.A, _, rfl⟩
  | xch a => cases h; exact .inr ⟨_, _, _, rfl⟩
  | ts a => cases h; exact .inr ⟨a.toNat, s.A, s.A, by rw [memWrite_eq]; rfl⟩
  | ca a => cases h; exact .inl ⟨_, s.Z, rfl⟩
  | ccs a => cases h; exact .inl ⟨_, _, rfl⟩
  | index a =>
    cases h
    exact .inr ⟨s.Z.toNat, _, s.A, by rw [memWrite_eq]; rfl⟩
  | op6 a => cases h; exact .inl ⟨s.A, s.Z, rfl⟩
  | op7 a => cases h; exact .inl ⟨s.A, s.Z, rfl⟩

/-! ## The step -/

/-- A step that answers a next state is one handler between the phases of R141. -/
theorem step_cases {s t : State} (h : step s = .next t) :
    ∃ u, exec (decode (fetch s s.Z.toNat)) (incrPhase (recordPhase (fetch s s.Z.toNat) s)) = .next u ∧
      t = countPhase u := by
  simp only [step] at h
  split at h
  · next u hu => cases h; exact ⟨u, hu, rfl⟩
  · cases h
  · cases h

/-- A handler that completes makes the step complete. -/
theorem step_of_exec {s u : State}
    (h : exec (decode (fetch s s.Z.toNat)) (incrPhase (recordPhase (fetch s s.Z.toNat) s)) = .next u) :
    step s = .next (countPhase u) := by
  unfold step
  simp only [h]

/-- A run goes on from the state its first step answers. -/
theorem runSteps_succ {n : Nat} {s t : State} (h : step s = .next t) : runSteps (n + 1) s = runSteps n t := by
  simp only [runSteps, h]

/-- Any core's run goes on from the state its first step answers. -/
theorem hostRun_of_next {M : Host.Core} {n : Nat} {s t : M.State} (h : M.step s = .next t) : M.run (n + 1) s = M.run n t := by
  simp only [Host.Core.run, h]

/-- Any core's run stops at a refusal. -/
theorem hostRun_of_refused {M : Host.Core} {n : Nat} {s : M.State} {r : M.Refusal} (h : M.step s = .refused r) :
    M.run (n + 1) s = .refused r := by
  simp only [Host.Core.run, h]

/-- A run of the model is the host interface's run. -/
theorem core_run_eq (n : Nat) (s : State) : Sys2Proof.core.run n s = runSteps n s := by
  induction n generalizing s with
  | zero => rfl
  | succ n ih =>
    cases h : step s with
    | next t => exact (hostRun_of_next (M := Sys2Proof.core) h).trans ((ih t).trans (runSteps_succ h).symm)
    | fault r => cases r
    | refused r =>
      have hr : runSteps (n + 1) s = .refused r := by simp only [runSteps, h]
      exact (hostRun_of_refused (M := Sys2Proof.core) h).trans hr.symm

end Sys2Proof.Machine
end

