-- ==== Sys2Proof/Laws/Fetch.lean ====
section
/-! SUPPORT. What `State.withFetchWord` and `decodeTableWord` do: the placed word is the one the next step fetches, and it
is the word the table decoder decodes. -/

namespace Sys2Proof.Machine

/-- Placing a word changes neither Z nor the bank registers. -/
theorem pokeTarget_cpu (s : State) (t : Target) (w : Word) :
    (pokeTarget s t w).Z = s.Z ∧ (pokeTarget s t w).EB = s.EB ∧ (pokeTarget s t w).FB = s.FB := by
  cases t <;> exact ⟨rfl, rfl, rfl⟩

/-- A fetch up to 0o7777 reads a cell of one of the two arrays. -/
theorem fetchResolve_cell (s : State) {addr : Nat} (h : addr ≤ Config.decodedLimit) :
    (∃ b off, fetchResolve s addr = .erasable b off) ∨ ∃ i, fetchResolve s addr = .fixed i := by
  unfold fetchResolve
  split
  · exact .inl ⟨_, _, rfl⟩
  · next he =>
    unfold resolve
    simp only [Config.regFileLimit, Config.erasableLimit, Config.decodedLimit] at he h ⊢
    rw [if_neg (by omega), if_neg he]
    split
    · exact .inr ⟨_, rfl⟩
    · exact .inr ⟨_, rfl⟩

/-- Z of a fetchable state is at most 0o7777. -/
theorem withFetchableZ_le (s : State) : (withFetchableZ s).Z.toNat ≤ Config.decodedLimit := by
  unfold withFetchableZ
  split
  · assumption
  · simp [State.setZ]

/-- Making Z fetchable keeps the invariant. -/
theorem State.Inv.withFetchableZ {s : State} (hs : s.Inv) : (Machine.withFetchableZ s).Inv := by
  unfold Machine.withFetchableZ
  split
  · exact hs
  · exact hs

/-- The word `placeAtFetch` stores is the word the next step fetches. -/
theorem fetch_placeAtFetch {s : State} (hs : s.Inv) (w : Word) :
    fetch (placeAtFetch s w) (placeAtFetch s w).Z.toNat = w := by
  have hu := hs.withFetchableZ
  have hle := withFetchableZ_le s
  unfold placeAtFetch
  generalize Machine.withFetchableZ s = u at hu hle
  obtain ⟨hz, heb, hfb⟩ := pokeTarget_cpu u (fetchResolve u u.Z.toNat) w
  rw [hz]
  unfold fetch
  rw [fetchResolve_congr heb hfb]
  obtain ⟨b, off, h⟩ | ⟨i, h⟩ := fetchResolve_cell u hle <;> rw [h]
  · exact State.readErasable_writeErasable_same hu b off w
  · exact State.readFixed_writeFixed_same hu i w

/-- The next step of `s.withFetchWord nbits w` fetches the word the hardware stores of `w`. -/
theorem fetch_withFetchWord {s : State} (hs : s.Inv) (nbits w : Nat) :
    fetch (s.withFetchWord nbits w) (s.withFetchWord nbits w).Z.toNat = tableWord nbits w :=
  fetch_placeAtFetch hs _

/-- The table decoder decodes that same word. -/
theorem decodeTableWord_eq (nbits w : Nat) : decodeTableWord nbits w = some (decode (tableWord nbits w)) := by
  have h : imageWord ((tableContainer nbits w).extractLsb' 8 8) ((tableContainer nbits w).extractLsb' 0 8) =
      tableWord nbits w := by
    apply BitVec.eq_of_getLsbD_eq
    intro i hi
    simp only [imageWord, tableWord, tableContainer, BitVec.getLsbD_setWidth, BitVec.getLsbD_append,
      BitVec.getLsbD_extractLsb', BitVec.getLsbD_ofNat, hi]
    by_cases h8 : i < 8
    · simp [h8]; omega
    · have h1 : i - 8 < 8 := by omega
      have h2 : 8 + (i - 8) = i := by omega
      have h3 : i < 16 := by omega
      simp [h8, h1, h2, h3]
  simp only [decodeTableWord, decodeBytes, h]

end Sys2Proof.Machine
end

