-- ==== Sys2Proof/Laws/PerInstr.lean ====
section
/-! SUPPORT. The per-instruction family EncodingFields: the two fields of an instruction's word are its opcode and its
address field, and the instruction is well formed. -/

namespace Sys2Proof.Laws.EncodingFields

/-- What the family says of one instruction (R100, R101, R105). -/
def Statement (i : Instr) : Prop :=
  i.wellFormed = true ∧ opField (encode i) = i.opcode ∧ addrField (encode i) = i.addr

/-- Appending the fields and extracting them again gives them back. -/
theorem fields_append (op : Opcode) (a : AddrField) : opField (op ++ a) = op ∧ addrField (op ++ a) = a :=
  ⟨BitVec.extractLsb'_append_eq_left (a := op) (b := a), BitVec.extractLsb'_append_eq_right (a := op) (b := a)⟩

/-- Any two fields of the widths of R100 fit. -/
theorem wellFormed_of_widths (i : Instr) : i.wellFormed = true := by
  have hop : i.opcode.toNat ≤ 7 := Nat.le_of_lt_succ i.opcode.isLt
  have haddr : i.addr.toNat ≤ 0o7777 := Nat.le_of_lt_succ i.addr.isLt
  simp [Instr.wellFormed, RawInstr.wellFormed, RawInstr.opFits, RawInstr.addrFits, Instr.raw, hop, haddr]

theorem tc (a : AddrField) : Statement (.tc a) := ⟨wellFormed_of_widths _, fields_append 0 a⟩

theorem xch (a : AddrField) : Statement (.xch a) := ⟨wellFormed_of_widths _, fields_append 1 a⟩

theorem ts (a : AddrField) : Statement (.ts a) := ⟨wellFormed_of_widths _, fields_append 2 a⟩

theorem ca (a : AddrField) : Statement (.ca a) := ⟨wellFormed_of_widths _, fields_append 3 a⟩

theorem ccs (a : AddrField) : Statement (.ccs a) := ⟨wellFormed_of_widths _, fields_append 4 a⟩

theorem index (a : AddrField) : Statement (.index a) := ⟨wellFormed_of_widths _, fields_append 5 a⟩

theorem op6 (a : AddrField) : Statement (.op6 a) := ⟨wellFormed_of_widths _, fields_append 6 a⟩

theorem op7 (a : AddrField) : Statement (.op7 a) := ⟨wellFormed_of_widths _, fields_append 7 a⟩

end Sys2Proof.Laws.EncodingFields
end

