-- ==== Sys2Proof/Tests/Slice0.lean ====
section
/-! SUPPORT. The model's own tests, each from a vector or rule of the spec named beside it, the smoke test of the
well-formedness checks, and for each statement with hypotheses a witness that meets them. -/

namespace Sys2Proof.Tests

open Sys2Proof.Machine

/-! ## Small states -/

/-- The power-on state with Z at `z` and the listed words in erasable bank 0. -/
def codeAt (z : Nat) (cells : List (Nat × Nat)) : State :=
  cells.foldl (fun s c => setErasable s 0 c.1 c.2) { State.reset with Z := BitVec.ofNat 15 z }

/-- The state an outcome answers, if it answers one. -/
def nextState : Host.Outcome State Fault Refusal → Option State
  | .next t => some t
  | .fault _ => none
  | .refused _ => none

/-- One field or read of the state after one step. -/
def afterStep {α : Type} (s : State) (f : State → α) : Option α :=
  (nextState (step s)).map f

/-! ## Well-formedness (30_encoding.md R100, R107): an ill-formed term for each check, which the check refuses -/

theorem test_wellFormed_refuses_opcode_8 :
    RawInstr.opFits ⟨8, 0⟩ = false ∧ RawInstr.wellFormed ⟨8, 0⟩ = false ∧ assemble ⟨8, 0⟩ = none := by decide

theorem test_wellFormed_refuses_address_10000 :
    RawInstr.addrFits ⟨3, 0o10000⟩ = false ∧ RawInstr.wellFormed ⟨3, 0o10000⟩ = false ∧ assemble ⟨3, 0o10000⟩ = none := by
  decide

theorem test_wellFormed_accepts_the_limits :
    RawInstr.wellFormed ⟨7, 0o7777⟩ = true ∧ assemble ⟨0, 0o1234⟩ = some 0o01234 ∧ assemble ⟨3, 0o300⟩ = some 0o30300 := by
  decide

/-! ## Decoding: words written out bit by bit as `oooaaaaaaaaaaaa` (30_encoding.md R100, R103) -/

theorem test_decode_tc : decode 0b000001010011100#15 = .tc 0o1234 := by decide
theorem test_decode_xch : decode 0b001111111111111#15 = .xch 0o7777 := by decide
theorem test_decode_ts : decode 0b010000010000001#15 = .ts 0o201 := by decide
theorem test_decode_ca : decode 0b011000011000000#15 = .ca 0o300 := by decide
theorem test_decode_ccs : decode 0b100000010000000#15 = .ccs 0o200 := by decide
theorem test_decode_index : decode 0b101000000000101#15 = .index 5 := by decide
theorem test_decode_op6 : decode 0b110000001010011#15 = .op6 0o123 := by decide
theorem test_decode_op7 : decode 0b111111111111111#15 = .op7 0o7777 := by decide

/-- Bit 7 of the high byte is discarded (20_memory.md R81), and fewer than two bytes hold no word (R80). -/
theorem test_decodeBytes :
    decodeBytes [0x30, 0xC0, 0x04] = .ok (.ca 0o300, [0x04]) ∧ decodeBytes [0xB0, 0xC0] = .ok (.ca 0o300, []) ∧
      decodeBytes [0x30] = .error .truncated ∧ decodeBytes [] = .error .truncated := by
  refine ⟨rfl, rfl, rfl, rfl⟩

/-- The table decoder and the placed word agree, and the placed word is fetched first after reset. -/
theorem test_withFetchWord :
    decodeTableWord 16 0o30300 = some (.ca 0o300) ∧
      fetch (State.reset.withFetchWord 16 0o30300) 0 = 0o30300 ∧
      (State.reset.withFetchWord 16 0o30300).Z = 0 := by decide

/-! ## Word arithmetic (95_test_vectors.md 2.1) -/

theorem test_normalize : aluNormalize 0x8000 = 0 ∧ aluNormalize 0x1FFFF = 0o77777 := by decide
theorem test_isNegative : isNegative 0o40000 = true ∧ isNegative 0o37777 = false := by decide
theorem test_negate : aluNegate 5 = 0o77772 ∧ aluNegate 0o12345 = 0o65432 := by decide
theorem test_add_carry :
    aluAdd 0o00005 0o77774 = 0o00002 ∧ aluAdd 0o77777 0o00001 = 0o00001 ∧ aluAdd 0o77776 0o77776 = 0o77775 ∧
      aluAdd 0o77777 0o77777 = 0o77777 := by decide
theorem test_add_zero_and_overflow :
    aluAdd 0 0 = 0 ∧ aluAdd 0o12345 0o65432 = 0o77777 ∧ aluAdd 0o37777 0o00001 = 0o40000 ∧
      aluAdd 0o40000 0o40000 = 0o00001 := by decide

/-! ## Address decode (95_test_vectors.md 2.3: EB = 2, FB = 7, and the FB variants) -/

/-- The state of the table of 95_test_vectors.md 2.3. -/
def decodeState (eb fb : Nat) : State :=
  { State.reset with EB := BitVec.ofNat 15 eb, FB := BitVec.ofNat 15 fb }

theorem test_resolve_erasable :
    resolve (decodeState 2 7) 0o20 = .erasable 0 0o20 ∧ resolve (decodeState 2 7) 0o777 = .erasable 0 0o777 ∧
      resolve (decodeState 2 7) 0o1000 = .erasable 1 0o1000 ∧ resolve (decodeState 0o77775 7) 0o20 = .erasable 1 0o20 ∧
      resolve (decodeState 0o77775 7) 0o1000 = .erasable 0 0o1000 := by decide

theorem test_resolve_fixed :
    resolve (decodeState 2 7) 0o2777 = .fixed 511 ∧ resolve (decodeState 2 7) 0o3000 = .fixed 1024 ∧
      resolve (decodeState 2 7) 0o3777 = .fixed 1535 ∧ resolve (decodeState 2 7) 0o4000 = .fixed 7168 ∧
      resolve (decodeState 2 7) 0o5777 = .fixed 8191 ∧ resolve (decodeState 2 7) 0o6000 = .fixed 7168 ∧
      resolve (decodeState 2 7) 0o7777 = .fixed 8191 := by decide

theorem test_resolve_fb_clamps :
    resolve (decodeState 0 0) 0o4000 = .fixed 0 ∧ resolve (decodeState 0 1) 0o4000 = .fixed 1024 ∧
      resolve (decodeState 0 35) 0o4000 = .fixed 35840 ∧ resolve (decodeState 0 36) 0o4000 = .fixed 35840 ∧
      resolve (decodeState 0 0o77777) 0o4000 = .fixed 35840 := by decide

theorem test_fetch_diverges_from_read :
    fetchResolve (decodeState 2 7) 0 = .erasable 0 0 ∧ resolve (decodeState 2 7) 0 = .reg 0 ∧
      fetchResolve (decodeState 2 7) 0o17 = .erasable 0 0o17 ∧ resolve (decodeState 2 7) 0o17 = .reg 0o17 ∧
      fetchResolve (decodeState 2 7) 0o10000 = .nothing := by decide

/-! ## The step (95_test_vectors.md 2.4) -/

theorem test_op6_step :
    step (codeAt 0o100 [(0o100, 0o60123)]) =
      .next { codeAt 0o100 [(0o100, 0o60123)] with Z := 0o101, IR := 0o60123, cycles := 1 } := by rfl

theorem test_op7_step :
    step (codeAt 0o100 [(0o100, 0o77777)]) =
      .next { codeAt 0o100 [(0o100, 0o77777)] with Z := 0o101, IR := 0o77777, cycles := 1 } := by rfl

theorem test_step_out_of_range :
    afterStep (codeAt 0o10000 []) (fun t => (t.Z, t.IR, t.cycles)) = some (0, 0, 1) ∧
      afterStep (codeAt 0o77777 []) (fun t => t.Z) = some 0 := by decide

/-! ## TC (W6, 2.5) -/

theorem test_tc_from_reset :
    afterStep { codeAt 0 [(0, 0o01234)] with A := 0o777, L := 1, Q := 2 }
      (fun t => (t.Z, t.A, t.L, t.Q, t.IR, t.cycles)) = some (0o1234, 0o777, 1, 2, 0o01234, 1) := by decide

theorem test_tc_field_is_no_register :
    afterStep (codeAt 0o200 [(0o200, 0o00005)]) (fun t => t.Z) = some 5 := by decide

/-! ## XCH, TS, CA (2.6) -/

theorem test_xch_erasable :
    afterStep { codeAt 0o100 [(0o100, 0o10202), (0o202, 7)] with A := 5 } (fun t => (t.A, hostRead t 0o202)) =
      some (7, 5) := by decide

theorem test_xch_reads_incremented_z :
    afterStep { codeAt 0o100 [(0o100, 0o10005)] with A := 5 } (fun t => (t.A, t.Z)) = some (0o101, 0o101) := by decide

theorem test_ts_erasable :
    afterStep { codeAt 0o100 [(0o100, 0o20201)] with A := 5 } (fun t => (t.A, hostRead t 0o201, t.Z)) =
      some (5, 5, 0o101) := by decide

theorem test_ts_register_dropped :
    afterStep { codeAt 0o100 [(0o100, 0o20003)] with A := 5 } (fun t => t.EB) = some 0 := by decide

theorem test_ca_keeps_minus_zero :
    afterStep (codeAt 0o100 [(0o100, 0o30300), (0o300, 0o77777)]) (fun t => t.A) = some 0o77777 := by decide

theorem test_ca_fixed_bank :
    afterStep { setFixed (codeAt 0o100 [(0o100, 0o34010)]) 7176 0o777 with FB := 7 } (fun t => t.A) = some 0o777 := by decide

/-! ## CCS (W7 to W9, 2.7) -/

theorem test_ccs_three_ways :
    afterStep (codeAt 0o100 [(0o100, 0o40200), (0o200, 5)]) (fun t => (t.A, t.Z)) = some (0o77772, 0o104) ∧
      afterStep (codeAt 0o100 [(0o100, 0o40200)]) (fun t => (t.A, t.Z)) = some (0o77777, 0o103) ∧
      afterStep (codeAt 0o100 [(0o100, 0o40200), (0o200, 0o77772)]) (fun t => (t.A, t.Z)) = some (5, 0o102) := by decide

theorem test_ccs_minus_zero_and_z :
    afterStep (codeAt 0o100 [(0o100, 0o40200), (0o200, 0o77777)]) (fun t => (t.A, t.Z)) = some (0, 0o103) ∧
      afterStep (codeAt 0o100 [(0o100, 0o40005)]) (fun t => (t.A, t.Z)) = some (0o77676, 0o104) := by decide

/-! ## INDEX (W10, 2.8) -/

theorem test_index_field :
    indexField 0o0100 0o77776 = 0o0077 ∧ indexField 0o0100 0o77777 = 0o0100 ∧ indexField 0o0005 0o77772 = 0o7777 ∧
      indexField 0 0o77776 = 0o7776 ∧ indexField 0o1234 0o70000 = 0o1234 ∧ indexField 0o4000 0o37777 = 0o3777 := by decide

theorem test_index_rewrites_next_word :
    afterStep (codeAt 0o100 [(0o100, 0o50200), (0o200, 2), (0o101, 0o47776)])
      (fun t => (hostRead t 0o101, t.A, t.Z)) = some (0o40000, 0, 0o101) := by decide

/-! ## The host's ports and the loader (W2, W3, W12, 2.9) -/

theorem test_host_write :
    hostRead (hostWrite State.reset 0o1777 0x1FFFF) 0o1777 = 0o77777 ∧
      hostRead (hostWrite (setFixed State.reset 0 0o42) 0o2000 0o77777) 0o2000 = 0o42 ∧
      hostWrite State.reset 3 5 = State.reset := by decide

theorem test_loadRom :
    (loadRom State.reset (.bytes [0x12, 0x34, 0xAB, 0xCD, 0x03])).1.fixed = [(0, 0o11064), (1, 0o25715)] ∧
      (loadRom (setFixed State.reset 0 0o42) (.bytes [0x00, 0x01])).1.fixed = [(0, 1)] ∧
      loadRom (setFixed State.reset 0 0o42) .cannotOpen = (setFixed State.reset 0 0o42, .failure) := by decide

theorem test_regWrite_channels :
    hostGetOutput (hostRegWrite State.reset 9 0o100033) 2 = 0o33 ∧
      memRead (hostSetInput State.reset 2 0o33) 0o11 = 0o33 ∧ memRead (hostRegWrite State.reset 9 5) 9 = 0 := by decide

/-! ## Witnesses: for each statement with hypotheses, a state and operands that meet them, clause by clause at a boundary -/

/-- A state with both memories in use, which meets the invariant; the witnesses run on it. -/
def busy : State :=
  setFixed (setErasable { codeAt 0o100 [(0o17, 1), (0o20, 2), (0o100, 0o10020), (0o1777, 3)] with A := 9, FB := 35 } 1 0o1000 4)
    36863 5

theorem witness_inv : busy.Inv := by decide

theorem witness_AddIsExactInRangeAndWrapsOutside :
    (-16383 ≤ val 0o37776 + val 1 ∧ val 0o37776 + val 1 ≤ 16383) ∧ 16383 < val 0o37777 + val 1 ∧
      val 0o40000 + val 0o77776 < -16383 := by decide

theorem witness_AddReturnsPlusZeroOnlyFromPlusZeros :
    val 1 + val 0o77776 = 0 ∧ ¬((1 : Word) = Word.plusZero ∧ (0o77776 : Word) = Word.plusZero) := by decide

theorem witness_AddCommutesAndAssociates : (Word.minusZero : Word) ≠ Word.plusZero := by decide

theorem witness_DecodeAndEncodeAgree : (Instr.ca 0o7777).wellFormed = true := by decide

theorem witness_OpcodeMapDecodesEveryWord :
    (0o07777 : Word) &&& 0o70000 = 0o00000 ∧ (0o10000 : Word) &&& 0o70000 = 0o10000 ∧
      (0o27777 : Word) &&& 0o70000 = 0o20000 ∧ (0o30000 : Word) &&& 0o70000 = 0o30000 ∧
      (0o47777 : Word) &&& 0o70000 = 0o40000 ∧ (0o50000 : Word) &&& 0o70000 = 0o50000 ∧
      (0o67777 : Word) &&& 0o70000 = 0o60000 ∧ (0o77777 : Word) &&& 0o70000 = 0o70000 := by decide

theorem witness_AssemblerLinesEncodeTheirFields :
    ((RawInstr.mk 7 0o7777).op ≤ 7 ∧ (RawInstr.mk 7 0o7777).addr ≤ 0o7777) ∧
      (7 < (RawInstr.mk 8 0).op ∨ 0o7777 < (RawInstr.mk 8 0).addr) ∧
      (7 < (RawInstr.mk 0 0o10000).op ∨ 0o7777 < (RawInstr.mk 0 0o10000).addr) := by decide

theorem witness_StepRunsTheDecodedInstruction :
    decode (fetch busy busy.Z.toNat) = .xch 0o20 ∧ (Instr.xch 0o20).wellFormed = true := by decide

theorem witness_StepAboveTheDecodedRangeRunsTcZero : 0o7777 < (codeAt 0o10000 []).Z.toNat := by decide

theorem witness_UnassignedOpcodesAreNoOps :
    fetch (codeAt 0 [(0, 0o60000)]) 0 = (6 : Opcode) ++ (0 : AddrField) ∧
      fetch (codeAt 0 [(0, 0o77777)]) 0 = (7 : Opcode) ++ (0o7777 : AddrField) := by decide

theorem witness_TcSetsZToItsAddressField :
    fetch (codeAt 0 [(0, 0o07777)]) 0 = (0 : Opcode) ++ (0o7777 : AddrField) := by decide

theorem witness_TcSelfLoopsForever :
    (codeAt 0o1777 [(0o1777, 0o01777)]).Z.toNat = (0o1777 : AddrField).toNat ∧
      fetch (codeAt 0o1777 [(0o1777, 0o01777)]) 0o1777 = (0 : Opcode) ++ (0o1777 : AddrField) := by decide

/-- The address classes of XCH and TS, at their limits. -/
theorem witness_XchSwapsAWithItsOperand :
    (0o17 : AddrField).toNat ≤ 0o17 ∧ 0o2000 ≤ (0o2000 : AddrField).toNat ∧
      (0o20 ≤ (0o20 : AddrField).toNat ∧ (0o1777 : AddrField).toNat ≤ 0o1777 ∧ busy.Inv) := by decide

theorem witness_TsStoresA :
    ((0o17 : AddrField).toNat ≤ 0o17 ∨ 0o2000 ≤ (0o17 : AddrField).toNat) ∧
      ((0o2000 : AddrField).toNat ≤ 0o17 ∨ 0o2000 ≤ (0o2000 : AddrField).toNat) ∧
      (0o20 ≤ (0o1777 : AddrField).toNat ∧ (0o1777 : AddrField).toNat ≤ 0o1777 ∧ busy.Inv) := by decide

theorem witness_LoadStoreFrame :
    (∃ t, exec (.xch 0o20) busy = .next t) ∧ (∃ t, exec (.ts 0o20) busy = .next t) ∧
      (∃ t, exec (.ca 0o20) busy = .next t) ∧ resolve busy 0o21 ≠ resolve busy 0o20 ∧
      decode (fetch (codeAt 0 [(0, 0o60000)]) 0) = .op6 0 ∧ ∃ t, step (codeAt 0 [(0, 0o60000)]) = .next t :=
  ⟨⟨_, rfl⟩, ⟨_, rfl⟩, ⟨_, rfl⟩, by decide, by decide, ⟨_, rfl⟩⟩

theorem witness_CcsSkipsByTheOperandsSign :
    val (memRead (codeAt 0 [(0o20, 0o77776)]) (0o20 : AddrField).toNat) < 0 ∧
      memRead (codeAt 0 []) (0o20 : AddrField).toNat = Word.plusZero ∧
      memRead (codeAt 0 [(0o20, 0o77777)]) (0o20 : AddrField).toNat = Word.minusZero ∧
      val (memRead (codeAt 0 [(0o20, 0o77777)]) (0o20 : AddrField).toNat) = 0 ∧
      0 < val (memRead (codeAt 0 [(0o20, 1)]) (0o20 : AddrField).toNat) := by decide

theorem witness_IndexFieldArithmetic :
    (0o37777 : Word).toNat ≤ 0o37777 ∧
      ((0o77776 : Word).toNat = 0o77777 - 1 ∧ 1 < (2 : AddrField).toNat ∧ (1 : AddrField).toNat = 1 ∧
        (0 : AddrField).toNat < 1) ∧
      (0o40000 : Word).toNat = 0o77777 - 16383 ∧ (1 : AddrField) ≠ 0 := by decide

theorem witness_IndexNeedsTheEndAroundCarry :
    (1 : AddrField).toNat + (0o77776 : Word).toNat < 2 ^ 15 ∧ 2 ^ 15 ≤ (1 : AddrField).toNat + (0o77777 : Word).toNat := by
  decide

theorem witness_IndexChangesOnlyTheNextWord :
    resolve busy 0o101 ≠ resolve busy busy.Z.toNat ∧ (codeAt 0o17 []).Z.toNat ≤ 0o17 ∧
      0o2000 ≤ (codeAt 0o2000 []).Z.toNat := by decide

/-- INDEX at 0o17 and 0o1776, whose next words are the first and last that can be rewritten, and at 0o1777 and 0o16, whose
next words cannot. -/
theorem witness_IndexActsOnTheVeryNextStep :
    (∀ z ∈ [0o16, 0o17, 0o1776, 0o1777],
      (codeAt z [(z, 0o50200)]).Inv ∧ fetch (codeAt z [(z, 0o50200)]) z = (5 : Opcode) ++ (0o200 : AddrField)) ∧
      afterStep (codeAt 0o17 [(0o17, 0o50200)]) (fun t => t.Z.toNat) = some 0o20 ∧
      afterStep (codeAt 0o1776 [(0o1776, 0o50200)]) (fun t => t.Z.toNat) = some 0o1777 ∧
      afterStep (codeAt 0o16 [(0o16, 0o50200)]) (fun t => t.Z.toNat) = some 0o17 ∧
      afterStep (codeAt 0o1777 [(0o1777, 0o50200)]) (fun t => t.Z.toNat) = some 0o2000 := by decide

/-- The two ends of every window of the address map: no address falls under two of its clauses. -/
theorem witness_AddressMapOfTheDataPath :
    resolve busy 0o17 = .reg 15 ∧ resolve busy 0o20 = .erasable 0 16 ∧ resolve busy 0o777 = .erasable 0 511 ∧
      resolve busy 0o1000 = .erasable 0 512 ∧ resolve busy 0o1777 = .erasable 0 1023 ∧ resolve busy 0o2000 = .fixed 0 ∧
      resolve busy 0o2777 = .fixed 511 ∧ resolve busy 0o3000 = .fixed 1024 ∧ resolve busy 0o3777 = .fixed 1535 ∧
      resolve busy 0o4000 = .fixed 35840 ∧ resolve busy 0o5777 = .fixed 36863 ∧ resolve busy 0o6000 = .fixed 35840 ∧
      resolve busy 0o7777 = .fixed 36863 ∧ resolve busy 0o10000 = .nothing := by decide

theorem witness_OutOfRangeReadsZeroAndDropsWrites : 0o7777 < 0o10000 := by decide

theorem witness_UnifiedWriteReachesErasableOnly :
    resolve busy 0o1777 = .erasable 0 1023 ∧ resolve busy 0 = .reg 0 ∧ resolve busy 0o2000 = .fixed 0 ∧
      resolve busy 0o10000 = .nothing := by decide

theorem witness_WriteThenReadByAddressClass :
    15 ≤ 15 ∧ (0o20 ≤ 0o20 ∧ 0o1777 ≤ 0o1777 ∧ busy.Inv) ∧ (0o2000 ≤ 0o2000 ∧ 0o7777 ≤ 0o7777) := by decide

theorem witness_FetchNeverReturnsARegister :
    (0o777 ≤ 0o777 ∧ 0o1000 ≤ 0o1000 ∧ 0o1777 ≤ 0o1777 ∧ 0o20 ≤ 0o20) ∧
      (busy.setA 0o12345).EB = busy.EB ∧ (busy.setA 0o12345).erasable = busy.erasable := by decide

theorem witness_FetchSeesWhatWasStored :
    busy.Inv ∧ fetchResolve busy 0o17 ≠ resolve busy 0o20 ∧ fetchResolve busy 0o2000 ≠ resolve busy 0o1777 := by decide

theorem witness_EqualContentsAreEqualStates :
    busy.Inv ∧ (setErasable (setErasable busy 0 0o300 1) 0 0o300 0).Inv ∧
      setErasable (setErasable busy 0 0o300 1) 0 0o300 0 = busy ∧ setErasable busy 0 0o300 1 ≠ busy := by decide

/-- One step that changes a word, the one at offset 16. -/
theorem witness_StepChangesAtMostOneWord :
    afterStep busy (fun t => (t.readErasable 0 0o20, busy.readErasable 0 0o20)) = some (9, 2) := by decide

theorem witness_OnlyTheNamedInstructionsWriteAAndZ :
    afterStep busy (fun t => (decide (t.A ≠ busy.A), t.Z)) = some (true, 0o101) ∧
      afterStep (codeAt 0 [(0, 0o01234)]) (fun t => decide (t.Z ≠ 1)) = some true := by decide

/-- Two different states that agree on everything an instruction can read. -/
theorem witness_UnreadableStateDoesNotInfluenceARun :
    SameVisible busy (hostSetInput ((busy.setOut 0 7).setCycles 99) 8 5) ∧
      hostSetInput ((busy.setOut 0 7).setCycles 99) 8 5 ≠ busy := by
  unfold SameVisible; decide

theorem witness_StepKeepsTheInvariant : busy.Inv := by decide

theorem witness_HostOperationsKeepTheInvariant : busy.Inv ∧ busy.fixed ≠ [] := by decide

theorem witness_RegWriteReachesOneRegisterOrOutput :
    (6 : Fin 16).val ≤ 6 ∧ ((0 : Fin 16) ≠ 6 ∨ 7 ≤ (6 : Fin 16).val) ∧ ((7 : Fin 16) ≠ 7 ∨ 7 ≤ (7 : Fin 16).val) ∧
      (14 : Fin 16).val = 7 + (7 : Fin 8).val ∧ (14 : Fin 16).val ≠ 7 + 6 ∧ (15 : Fin 16).val = 15 := by decide

theorem witness_HostSetsOneInputChannel : 15 < 16 ∧ 15 < 17 := by decide

theorem witness_BankAccessorsBypassTheDecode :
    busy.Inv ∧ (1 < 2 ∧ 1023 < 1024) ∧ 36863 < 36864 ∧ ¬(2 < 2 ∧ 0 < 1024) ∧ ¬(0 < 2 ∧ 1024 < 1024) ∧
      ¬36864 < 36864 := by decide

theorem witness_RomLoaderFillsFixedMemoryInOrder : busy.Inv ∧ 2 * 0 + 1 < [0x12#8, 0x34#8, 0xAB#8].length := by decide

theorem witness_ErasableBanksAreIsolated : busy.Inv ∧ 0o20 ≤ 0o777 ∧ 0o777 ≤ 0o777 ∧ 0o1000 ≤ 0o1777 := by decide

theorem witness_CodeBelowOctalTwentyIsPlacedBySetErasable : busy.Inv ∧ 0o17 ≤ 0o17 := by decide

end Sys2Proof.Tests
end

section
/-! PROOF. The statements about memory (spec/20_memory.md): the unified data write by the class its address resolves to,
and the ROM loader. -/

namespace Sys2Proof.Machine

/-! ## The unified data write, by address class -/

/-- An address above 0o7777 resolves to nothing (R68). -/
theorem resolve_of_undecoded (s : State) {addr : Nat} (h : 0o7777 < addr) : resolve s addr = .nothing := by
  have hreg : ¬ addr ≤ Config.regFileLimit := by simp only [Config.regFileLimit]; omega
  have hera : ¬ addr ≤ Config.erasableLimit := by simp only [Config.erasableLimit]; omega
  have hfix : ¬ addr ≤ Config.fixedFixedLimit := by simp only [Config.fixedFixedLimit]; omega
  have hdec : ¬ addr ≤ Config.decodedLimit := by simp only [Config.decodedLimit]; omega
  rw [resolve, if_neg hreg, if_neg hera, if_neg hfix, if_neg hdec]

/-- Where the address resolves to an erasable cell, the data write is a write of that cell (R70). -/
theorem memWrite_of_erasable {s : State} {addr : Nat} {b : Fin 2} {off : Fin 1024} (v : Word)
    (h : resolve s addr = .erasable b off) : memWrite s addr v = s.writeErasable b off v := by
  rw [memWrite, h]

/-- Where the address resolves to no erasable cell, the data write is dropped (R70). -/
theorem memWrite_of_not_erasable {s : State} {addr : Nat} (v : Word)
    (h : ∀ b off, resolve s addr ≠ .erasable b off) : memWrite s addr v = s := by
  obtain ⟨b, off, hr, -⟩ | ⟨-, hw⟩ := memWrite_cases s addr v
  · exact absurd hr (h b off)
  · exact hw

/-- The data write is dropped at every address outside 0o20..0o1777 (R63, R70). -/
theorem memWrite_of_outside (s : State) {addr : Nat} (v : Word) (h : addr < 0o20 ∨ 0o1777 < addr) :
    memWrite s addr v = s := by
  refine memWrite_of_not_erasable v fun b off hr => ?_
  obtain ⟨hlo, hhi, -⟩ := resolve_erasable hr
  omega

/-- In 0o20..0o1777 a data read returns the word the data write stored (R88). -/
theorem memRead_memWrite_same {s : State} (hs : s.Inv) {addr : Nat} (v : Word) (h1 : 0o20 ≤ addr)
    (h2 : addr ≤ 0o1777) : memRead (memWrite s addr v) addr = v := by
  have hr := resolve_of_erasable s h1 h2
  have hr' : resolve (memWrite s addr v) addr = resolve s addr := resolve_congr (by simp) (by simp) addr
  rw [memRead, hr', hr, memWrite_of_erasable v hr]
  exact State.readErasable_writeErasable_same hs _ _ v

/-! ## The ROM loader -/

/-- A word of the image is its big-endian pair of bytes as a number, masked to 15 bits (R81). -/
theorem imageWord_eq (hi lo : BitVec 8) : imageWord hi lo = BitVec.ofNat 15 (256 * hi.toNat + lo.toNat) := by
  have hpair : (hi ++ lo).toNat = 256 * hi.toNat + lo.toNat := by
    rw [BitVec.toNat_append, ← Nat.shiftLeft_add_eq_or_of_lt lo.isLt, Nat.shiftLeft_eq]
    omega
  apply BitVec.eq_of_toNat_eq
  rw [imageWord, BitVec.toNat_setWidth, hpair, BitVec.toNat_ofNat]

/-- Loading from index `j` on leaves every cell below `j` alone. -/
theorem loadWords_read_of_lt (image : List (BitVec 8)) (m : Memory) {i j : Nat} (h : i < j) :
    (loadWords image j m).read i = m.read i := by
  induction image, j, m using loadWords.induct with
  | case1 hi lo rest j m hj ih =>
    rw [loadWords, if_pos hj, ih (by omega), Memory.read_write_of_ne _ _ (by omega)]
  | case2 hi lo rest j m hj => rw [loadWords, if_neg hj]
  | case3 | case4 => rfl

/-- Loading from index `j` on puts the image's `k`-th pair of bytes in cell `j + k`, where fixed memory has one
(R80, R81). -/
theorem loadWords_read_of_pair {image : List (BitVec 8)} {j k : Nat} {m : Memory}
    (hm : m.wf Config.fixedWords = true) (hjk : j + k < Config.fixedWords) (h : 2 * k + 1 < image.length) :
    (loadWords image j m).read (j + k) = imageWord image[2 * k] image[2 * k + 1] := by
  induction image, j, m using loadWords.induct generalizing k with
  | case1 hi lo rest j m hj ih =>
    rw [loadWords, if_pos hj]
    cases k with
    | zero =>
      rw [loadWords_read_of_lt _ _ (by omega)]
      exact Memory.read_write_same _ hm
    | succ k =>
      rw [show j + (k + 1) = j + 1 + k by omega]
      exact ih (Memory.wf_write _ hm hj) (by omega) (by simp only [List.length_cons] at h; omega)
  | case2 hi lo rest j m hj => omega
  | case3 | case4 => simp at h

/-- Loading from index `j` on leaves cell `j + k` alone when the image has no whole `k`-th pair of bytes (R80). -/
theorem loadWords_read_of_short {image : List (BitVec 8)} {j k : Nat} (m : Memory)
    (h : image.length ≤ 2 * k + 1) : (loadWords image j m).read (j + k) = m.read (j + k) := by
  induction image, j, m using loadWords.induct generalizing k with
  | case1 hi lo rest j m hj ih =>
    simp only [List.length_cons] at h
    obtain ⟨k, rfl⟩ : ∃ k', k = k' + 1 := ⟨k - 1, by omega⟩
    rw [loadWords, if_pos hj, show j + (k + 1) = j + 1 + k by omega, ih (by omega),
      Memory.read_write_of_ne _ _ (by omega)]
  | case2 hi lo rest j m hj => rw [loadWords, if_neg hj]
  | case3 | case4 => rfl

/-- What a fixed cell holds after a load that could open its file: the image's pair of bytes for it, or, past the image's
last whole pair, what it held before (R80, R81). -/
theorem loadRom_readFixed {s : State} (hs : s.Inv) (image : List (BitVec 8)) (j : Fin 36864) :
    (loadRom s (.bytes image)).1.readFixed j =
      if h : 2 * j.val + 1 < image.length then imageWord image[2 * j.val] image[2 * j.val + 1]
      else s.readFixed j := by
  have hcell : (loadRom s (.bytes image)).1.readFixed j = (loadWords image 0 s.fixed).read (0 + j.val) := by
    rw [Nat.zero_add]; rfl
  rw [hcell]
  split
  · next h => exact loadWords_read_of_pair hs.2 (by simp only [Config.fixedWords]; omega) (by omega)
  · next h => rw [loadWords_read_of_short s.fixed (by omega), Nat.zero_add]; rfl

/-- Bank `j div 1024`, offset `j mod 1024` is the flat index `j` (R67). -/
theorem fixedIndex_div_mod (j : Fin 36864) :
    fixedIndex ⟨j.val / 1024, by omega⟩ ⟨j.val % 1024, by omega⟩ = j :=
  Fin.ext (Nat.div_add_mod j.val 1024)

/-! ## The obligations -/

/-- Settles O35, by the class of the address: outside 0o20..0o1777 the write is dropped, inside it stores the word that the
read returns. -/
theorem writeThenReadByAddressClass : Obligations.WriteThenReadByAddressClass := by
  intro s n v
  refine ⟨fun h => ?_, fun h1 h2 hs => memRead_memWrite_same hs _ h1 h2, fun h _ => ?_⟩
  · rw [hostWrite, memWrite_of_outside s _ (.inl (by omega))]
  · rw [hostWrite, memWrite_of_outside s _ (.inr (by omega))]

/-- Settles O52: the loader's clauses come from its definition, the contents from the induction over the image. -/
theorem romLoaderFillsFixedMemoryInOrder : Obligations.RomLoaderFillsFixedMemoryInOrder := by
  refine ⟨fun s => rfl, fun s image hs => ⟨rfl, rfl, fun j => ?_, fixedIndex_div_mod⟩⟩
  simp only [loadRom_readFixed hs, imageWord_eq]

/-- Settles O33: nothing is read at an address that resolves to nothing, and a write there is dropped. -/
theorem outOfRangeReadsZeroAndDropsWrites : Obligations.OutOfRangeReadsZeroAndDropsWrites := by
  intro s n h
  have hr := resolve_of_undecoded s h
  exact ⟨hr, by rw [memRead, hr]; rfl, fun v => memWrite_of_outside s v (.inr (by omega))⟩

/-- Settles O34, by the target the address resolves to. -/
theorem unifiedWriteReachesErasableOnly : Obligations.UnifiedWriteReachesErasableOnly := by
  intro s n v
  refine ⟨fun b off h => memWrite_of_erasable _ h, fun o h => ?_, fun i h => ?_, fun h => ?_⟩ <;>
    exact memWrite_of_not_erasable _ (by simp [h])

end Sys2Proof.Machine
end

section
/-! PROOF. The statement about the unassigned opcodes (spec/30_encoding.md R104; spec/41_step_and_dispatch.md R147, R148):
what a word put together from its two fields decodes to, and the step whose handler has no effect. -/

namespace Sys2Proof.Machine

/-- A word put together from an opcode and an address field decodes to the instruction the two name (R100, R103). -/
theorem decode_append (op : Opcode) (a : AddrField) : decode (op ++ a) = instrOf op a := by
  obtain ⟨hop, haddr⟩ := Laws.EncodingFields.fields_append op a
  rw [decode, hop, haddr]

/-- R147, the decoder's half. -/
theorem decode_op6 (a : AddrField) : decode ((6 : Opcode) ++ a) = .op6 a := decode_append 6 a

/-- R148, the decoder's half. -/
theorem decode_op7 (a : AddrField) : decode ((7 : Opcode) ++ a) = .op7 a := decode_append 7 a

/-- A step whose handler has no effect only records the fetched word, increments Z and counts (R141). -/
theorem step_of_noEffect {s : State} (h : ∀ u, exec (decode (fetch s s.Z.toNat)) u = .next u) :
    step s =
      .next { s with IR := fetch s s.Z.toNat, Z := aluNormalize (s.Z.toNat + 1), cycles := s.cycles + 1 } :=
  step_of_exec (h _)

/-- Settles O18, by the decoder on a word of each unassigned opcode and the step of a handler with no effect. -/
theorem unassignedOpcodesAreNoOps : Obligations.UnassignedOpcodesAreNoOps := by
  refine ⟨fun a s => ⟨decode_op6 a, exec_op6 a s, decode_op7 a, exec_op7 a s⟩, fun a s hw => ?_⟩
  refine step_of_noEffect fun u => ?_
  obtain h6 | h7 := hw
  · rw [h6, decode_op6, exec_op6]
  · rw [h7, decode_op7, exec_op7]

end Sys2Proof.Machine
end

section
/-! PROOF. The statements about normalize, the sign test and negate (spec/40_word_arithmetic.md R122 to R124), from the spec
lemma of each in Laws/Alu. -/

namespace Sys2Proof.Machine

/-- R122, the pseudocode's second form: reducing modulo 2^15 is masking with 0x7FFF. -/
theorem aluNormalize_toNat_eq_and (n : Nat) : (aluNormalize n).toNat = n &&& 0x7FFF := by
  rw [aluNormalize_toNat]
  exact (Nat.and_two_pow_sub_one_eq_mod n 15).symm

/-- The complement of a word is a word already, so normalizing it changes nothing (R124). -/
theorem aluNegate_eq_not (w : Word) : aluNegate w = ~~~w := aluNormalize_word (~~~w)

/-- R123, as a bound on the word's numeric value. -/
theorem isNegative_iff_le (w : Word) : isNegative w = true ↔ 2 ^ 14 ≤ w.toNat := by
  rw [isNegative_eq]
  exact decide_eq_true_iff

/-- Settles O1: the remainder and the identity are normalize's spec lemmas, the mask is the same remainder. -/
theorem normalizeMasksToFifteenBits : Obligations.NormalizeMasksToFifteenBits :=
  ⟨fun n => ⟨aluNormalize_toNat n, aluNormalize_toNat_eq_and n⟩, aluNormalize_word⟩

/-- Settles O2: the test is bit 14 by definition and a bound by its spec lemma; the corner cases are single words. -/
theorem signTestIsBitFourteen : Obligations.SignTestIsBitFourteen :=
  ⟨fun w => ⟨Iff.rfl, isNegative_iff_le w⟩, by decide⟩

/-- Settles O3: the complement and the subtraction are negate's spec lemmas; the corner cases are single words. -/
theorem negateIsTheComplement : Obligations.NegateIsTheComplement :=
  ⟨fun w => ⟨aluNegate_eq_not w, aluNegate_toNat w⟩, by decide⟩

end Sys2Proof.Machine
end

section
/-! PROOF. The statements about the step (spec/41_step_and_dispatch.md R140 to R150): every handler completes and leaves IR
and the cycle counter alone, so every step completes, keeps the word it recorded and counts one cycle. -/

namespace Sys2Proof.Machine

/-! ## The handlers -/

/-- Every handler answers a next state: the dispatch table has no entry that stops the machine (R146, R150). -/
theorem exec_completes (i : Instr) (s : State) : ∃ t, exec i s = .next t := by
  cases i with
  | tc a => exact ⟨_, exec_tc a s⟩
  | xch a => exact ⟨_, exec_xch a s⟩
  | ts a => exact ⟨_, exec_ts a s⟩
  | ca a => exact ⟨_, exec_ca a s⟩
  | ccs a => exact ⟨_, exec_ccs a s⟩
  | index a => exact ⟨_, exec_index a s⟩
  | op6 a => exact ⟨_, exec_op6 a s⟩
  | op7 a => exact ⟨_, exec_op7 a s⟩

/-- No handler writes IR; a data write, INDEX's among them, reaches memory only (R143). -/
theorem exec_IR {i : Instr} {s t : State} (h : exec i s = .next t) : t.IR = s.IR := by
  obtain ⟨a, z, rfl⟩ | ⟨addr, v, a, rfl⟩ := exec_cases h
  · rfl
  · rw [State.setA_IR, memWrite_IR]

/-- No handler counts: the cycle counter is the count phase's alone (R149). -/
theorem exec_cycles {i : Instr} {s t : State} (h : exec i s = .next t) : t.cycles = s.cycles := by
  obtain ⟨a, z, rfl⟩ | ⟨addr, v, a, rfl⟩ := exec_cases h
  · rfl
  · rw [State.setA_cycles, memWrite_cycles]

/-! ## The step -/

/-- The state the handler runs on: the fetched word is in IR and Z is incremented (R141). -/
theorem incrPhase_recordPhase (w : Word) (s : State) :
    incrPhase (recordPhase w s) = { s with IR := w, Z := aluNormalize (s.Z.toNat + 1) } := rfl

/-- Setting `cycles` back to what it was before the count undoes the count phase. -/
theorem countPhase_with_cycles (s : State) : { countPhase s with cycles := s.cycles } = s := rfl

/-- Every step is the decoded handler, which completes, between the phases of R141. -/
theorem step_runs_handler (s : State) :
    ∃ u, exec (decode (fetch s s.Z.toNat)) (incrPhase (recordPhase (fetch s s.Z.toNat) s)) = .next u ∧
      step s = .next (countPhase u) := by
  obtain ⟨u, hu⟩ := exec_completes (decode (fetch s s.Z.toNat)) (incrPhase (recordPhase (fetch s s.Z.toNat) s))
  exact ⟨u, hu, step_of_exec hu⟩

/-- Every step completes (R140). -/
theorem step_completes (s : State) : Completes s := by
  obtain ⟨u, -, hstep⟩ := step_runs_handler s
  exact ⟨countPhase u, hstep⟩

/-- A step adds exactly 1 to the cycle counter, whatever the opcode (R149). -/
theorem step_cycles {s t : State} (h : step s = .next t) : t.cycles = s.cycles + 1 := by
  obtain ⟨u, hu, rfl⟩ := step_cases h
  have hcyc : u.cycles = s.cycles := by simpa using exec_cycles hu
  rw [countPhase_cycles, hcyc]

/-- A run of any length completes and counts its steps: the next step always can be taken, and it counts 1
(R149, R150). -/
theorem runSteps_completes_and_counts (n : Nat) (s : State) :
    ∃ t, runSteps n s = .next t ∧ t.cycles = s.cycles + n := by
  induction n generalizing s with
  | zero => exact ⟨s, rfl, rfl⟩
  | succ n ih =>
    obtain ⟨u, hu⟩ := step_completes s
    obtain ⟨t, ht, hcyc⟩ := ih u
    refine ⟨t, (runSteps_succ hu).trans ht, ?_⟩
    rw [hcyc, step_cycles hu]
    omega

/-! ## The obligations -/

/-- Settles O14, by the induction on the run's length; the run from reset is the case whose counter starts at 0. -/
theorem runOfAnyLengthCompletesAndCounts : Obligations.RunOfAnyLengthCompletesAndCounts := by
  refine ⟨runSteps_completes_and_counts, fun n => ?_⟩
  obtain ⟨t, ht, hcyc⟩ := runSteps_completes_and_counts n State.reset
  exact ⟨t, ht, hcyc.trans (Nat.zero_add n)⟩

/-- Settles O13: a next state exists because every handler completes, and only one because the step is a function. -/
theorem everyStateHasExactlyOneNextState : Obligations.EveryStateHasExactlyOneNextState := by
  intro s
  obtain ⟨t, ht⟩ := step_completes s
  exact ⟨t, ht, fun o ho => ho.symm.trans ht⟩

/-- Settles O15: the record phase puts the fetched word in IR, and neither the handler nor the count changes it. -/
theorem stepRecordsTheFetchedWord : Obligations.StepRecordsTheFetchedWord := by
  intro s
  obtain ⟨u, hu, hstep⟩ := step_runs_handler s
  have hIR : u.IR = fetch s s.Z.toNat := by simpa using exec_IR hu
  have hcyc : u.cycles = s.cycles := by simpa using exec_cycles hu
  refine ⟨countPhase u, incrPhase (recordPhase (fetch s s.Z.toNat) s), hstep, hIR, rfl, ?_⟩
  rw [hu, ← hcyc, countPhase_with_cycles]

/-- Settles O12: the handler completes on the state with the fetched word recorded and Z incremented, so the step is that
handler's next state with one more cycle. -/
theorem stepRunsTheDecodedInstruction : Obligations.StepRunsTheDecodedInstruction := by
  rintro s _ rfl -
  obtain ⟨u, hu, hstep⟩ := step_runs_handler s
  rw [hstep, ← incrPhase_recordPhase, hu]
  rfl

end Sys2Proof.Machine
end

section
/-! PROOF. The statement about TC (spec/42_control_transfer.md R160): the word decodes to it, its handler writes Z only, and
the step's incremented Z is overwritten. -/

namespace Sys2Proof.Machine

/-- Normalizing a number that is an address field zero-extends the field to a word (R160). -/
theorem aluNormalize_addrField (a : AddrField) : aluNormalize a.toNat = a.setWidth 15 := BitVec.ofNat_toNat 15 a

/-- R160, the decoder's half. -/
theorem decode_tc (a : AddrField) : decode ((0 : Opcode) ++ a) = .tc a := decode_append 0 a

/-- R160, the handler's half: the field, zero-extended, is the new Z, and every other field of the state is kept. -/
theorem exec_tc_setWidth (a : AddrField) (s : State) : exec (.tc a) s = .next { s with Z := a.setWidth 15 } := by
  rw [exec_tc, aluNormalize_addrField]
  rfl

/-- A step that fetches a TC records its word, jumps and counts; the incremented Z is lost (R141, R160). -/
theorem step_of_tc {s : State} {a : AddrField} (hw : fetch s s.Z.toNat = (0 : Opcode) ++ a) :
    step s = .next { s with Z := a.setWidth 15, IR := (0 : Opcode) ++ a, cycles := s.cycles + 1 } := by
  have hexec : exec (decode (fetch s s.Z.toNat)) (incrPhase (recordPhase (fetch s s.Z.toNat) s)) =
      .next { s with Z := a.setWidth 15, IR := (0 : Opcode) ++ a } := by
    rw [hw, decode_tc, exec_tc_setWidth]
    rfl
  exact step_of_exec hexec

/-- Settles O19, by the decoder and the handler on a TC and the step that fetches one; zero extension keeps the field's
number, which 12 bits bound. -/
theorem tcSetsZToItsAddressField : Obligations.TcSetsZToItsAddressField := by
  refine ⟨fun a s => ⟨decode_tc a, exec_tc_setWidth a s, ?_, ?_⟩, fun a s => step_of_tc⟩
  · exact BitVec.toNat_setWidth_of_le (by decide)
  · exact Nat.le_of_lt_succ a.isLt

end Sys2Proof.Machine
end

section
/-! PROOF. The statements about XCH, TS and CA (spec/43_load_store.md): the data read by address class and beside a data
write, then what each handler does where the write lands and where it is dropped. -/

namespace Sys2Proof.Machine

/-! ## The data read -/

/-- The addresses 0..0o17 are the register file (R62, R63). -/
theorem resolve_of_regFile (s : State) {addr : Nat} (h : addr ≤ 0o17) : resolve s addr = .reg (Fin.ofNat 16 addr) :=
  if_pos h

/-- No address from 0o20 up resolves to a register (R63). -/
theorem resolve_ne_reg (s : State) {addr : Nat} (h : 0o20 ≤ addr) (o : Fin 16) : resolve s addr ≠ .reg o := by
  have hreg : ¬ addr ≤ Config.regFileLimit := by simp only [Config.regFileLimit]; omega
  rw [resolve, if_neg hreg, erasableTarget]
  split_ifs <;> simp

/-- In 0..0o17 a data read is a register-file read (R69). -/
theorem memRead_of_regFile (s : State) {addr : Nat} (h : addr ≤ 0o17) :
    memRead s addr = regRead s (Fin.ofNat 16 addr) := by
  rw [memRead, resolve_of_regFile s h, readTarget]

/-- From 0o20 up a data read does not see the accumulator. -/
theorem memRead_setA (s : State) (v : Word) {addr : Nat} (h : 0o20 ≤ addr) : memRead (s.setA v) addr = memRead s addr :=
  memRead_congr (s := s) (t := s.setA v) rfl rfl rfl rfl h

/-- From 0o20 up a data read does not see a data write whose address resolves elsewhere: the cell it reads is not the one
that changed. -/
theorem memRead_memWrite_of_ne (s : State) {n addr : Nat} (v : Word) (h : 0o20 ≤ n)
    (hne : resolve s n ≠ resolve s addr) : memRead (memWrite s addr v) n = memRead s n := by
  obtain ⟨hfixed, herasable⟩ := sameCellsBut_memWrite s addr v
  have hr : resolve (memWrite s addr v) n = resolve s n := resolve_congr (by simp) (by simp) n
  rw [memRead, memRead, hr]
  cases hn : resolve s n with
  | reg o => exact absurd hn (resolve_ne_reg s h o)
  | erasable b off => exact herasable b off fun e => hne (hn.trans e.symm)
  | fixed i => exact hfixed i
  | nothing => rfl

/-! ## The decoder -/

/-- R170, the decoder's half. -/
theorem decode_xch (a : AddrField) : decode ((1 : Opcode) ++ a) = .xch a := decode_append 1 a

/-- R171, the decoder's half. -/
theorem decode_ts (a : AddrField) : decode ((2 : Opcode) ++ a) = .ts a := decode_append 2 a

/-- R172, the decoder's half. -/
theorem decode_ca (a : AddrField) : decode ((3 : Opcode) ++ a) = .ca a := decode_append 3 a

/-! ## The handlers, by address class -/

/-- In 0..0o17, CA loads the register at that offset (R172). -/
theorem exec_ca_of_regFile (s : State) {a : AddrField} (h : a.toNat ≤ 0o17) :
    exec (.ca a) s = .next { s with A := regRead s (Fin.ofNat 16 a.toNat) } := by
  rw [exec_ca, memRead_of_regFile s h]
  rfl

/-- Where its write is dropped, XCH is CA: the read side stays (R170). -/
theorem exec_xch_eq_exec_ca (s : State) {a : AddrField} (h : a.toNat < 0o20 ∨ 0o1777 < a.toNat) :
    exec (.xch a) s = exec (.ca a) s := by
  rw [exec_xch, exec_ca, memWrite_of_outside s _ h]

/-- In 0..0o17, XCH loads the register at that offset and stores nothing (R170). -/
theorem exec_xch_of_regFile (s : State) {a : AddrField} (h : a.toNat ≤ 0o17) :
    exec (.xch a) s = .next { s with A := regRead s (Fin.ofNat 16 a.toNat) } :=
  (exec_xch_eq_exec_ca s (.inl (by omega))).trans (exec_ca_of_regFile s h)

/-- From 0o2000 up, where no data write lands, XCH loads A and stores nothing (R170). -/
theorem exec_xch_of_fixed (s : State) {a : AddrField} (h : 0o2000 ≤ a.toNat) :
    exec (.xch a) s = .next { s with A := memRead s a.toNat } :=
  (exec_xch_eq_exec_ca s (.inr (by omega))).trans (exec_ca a s)

/-- In 0o20..0o1777 the address reads as the old A after an XCH (R170). -/
theorem memRead_of_exec_xch {s t : State} {a : AddrField} (hs : s.Inv) (h1 : 0o20 ≤ a.toNat) (h2 : a.toNat ≤ 0o1777)
    (h : exec (.xch a) s = .next t) : memRead t a.toNat = s.A := by
  cases h
  exact (memRead_setA _ _ h1).trans (memRead_memWrite_same hs s.A h1 h2)

/-- Outside 0o20..0o1777, TS has no effect (R171). -/
theorem exec_ts_of_outside (s : State) {a : AddrField} (h : a.toNat < 0o20 ∨ 0o1777 < a.toNat) :
    exec (.ts a) s = .next s := by
  rw [exec_ts, memWrite_of_outside s _ h]

/-! ## The obligations -/

/-- Settles O23: CA is its own definition, and each corner case is its register-file read at one offset. -/
theorem caLoadsItsOperand : Obligations.CaLoadsItsOperand := fun a s =>
  ⟨decode_ca a, exec_ca a s, exec_ca_of_regFile s (a := 0) (by decide), exec_ca_of_regFile s (a := 1) (by decide),
    exec_ca_of_regFile s (a := 2) (by decide), exec_ca_of_regFile s (a := 3) (by decide),
    exec_ca_of_regFile s (a := 4) (by decide), exec_ca_of_regFile s (a := 5) (by decide),
    exec_ca_of_regFile s (a := 6) (by decide), exec_ca_of_regFile s (a := 0o17) (by decide)⟩

/-- Settles O21, by the class of the address: where the write is dropped XCH is CA, and in erasable memory the read after
the write gives the old A. -/
theorem xchSwapsAWithItsOperand : Obligations.XchSwapsAWithItsOperand := by
  intro a s
  refine ⟨decode_xch a, exec_xch a s, exec_xch_of_regFile s, exec_xch_of_regFile s (a := 0) (by decide),
    exec_xch_of_regFile s (a := 5) (by decide), exec_xch_of_regFile s (a := 0o17) (by decide), exec_xch_of_fixed s,
    fun h1 h2 hs => ?_⟩
  exact ⟨_, exec_xch a s, rfl, memRead_of_exec_xch hs h1 h2 (exec_xch a s)⟩

/-- Settles O22: TS is a data write, dropped outside 0o20..0o1777 and read back inside. -/
theorem tsStoresA : Obligations.TsStoresA := by
  intro a s
  refine ⟨decode_ts a, exec_ts a s, fun h => exec_ts_of_outside s (by omega), fun h1 h2 hs => ?_⟩
  exact ⟨_, exec_ts a s, memWrite_eq s a.toNat s.A, memRead_memWrite_same hs s.A h1 h2⟩

/-- Settles O24: XCH and TS have the frame of their one data write, to which XCH adds a new A; CA only sets A; and a step
whose handler has no effect is the step loop alone. -/
theorem loadStoreFrame : Obligations.LoadStoreFrame := by
  refine ⟨fun a s t h => ?xch, fun a s t h => ?ts, fun a s t h => ?ca, fun s t a hop h => ?loop⟩
  case xch =>
    cases h
    refine ⟨congrArg (State.setA · _) (memWrite_eq s a.toNat s.A), sameCellsBut_memWrite s a.toNat s.A,
      fun n hn hne => ?_⟩
    exact (memRead_setA _ _ hn).trans (memRead_memWrite_of_ne s s.A hn hne)
  case ts =>
    cases h
    exact ⟨memWrite_eq s a.toNat s.A, sameCellsBut_memWrite s a.toNat s.A, fun n => memRead_memWrite_of_ne s s.A⟩
  case ca =>
    cases h
    exact ⟨rfl, ⟨fun _ => rfl, fun _ _ _ => rfl⟩, fun n => memRead_setA s _⟩
  case loop =>
    rw [step_of_noEffect fun u => by rw [hop, exec_op6]] at h
    cases h
    rfl

end Sys2Proof.Machine
end

section
/-! PROOF. The statements about the encoding (spec/30_encoding.md; spec/20_memory.md R81): a word is its two fields side by
side, the opcode map names one instruction for each pair of fields, and a ROM image holds each word as its two bytes. -/

namespace Sys2Proof.Machine

/-! ## A word and its two fields -/

/-- A word is its opcode field before its address field (R100, R101). -/
theorem opField_append_addrField (w : Word) : opField w ++ addrField w = w := BitVec.extractLsb'_append_extractLsb'

/-- The address field is the low 12 bits (R101). -/
theorem addrField_eq_setWidth (w : Word) : addrField w = w.setWidth 12 :=
  (BitVec.setWidth_eq_extractLsb' (by decide)).symm

theorem opField_toNat (w : Word) : (opField w).toNat = w.toNat / 4096 := by
  have hw := w.isLt
  rw [opField, BitVec.extractLsb'_toNat, Nat.shiftRight_eq_div_pow]
  omega

theorem addrField_toNat (w : Word) : (addrField w).toNat = w.toNat % 4096 := by
  rw [addrField_eq_setWidth, BitVec.toNat_setWidth]

/-- The mask 0o70000 keeps the opcode field and clears the address field (R103). -/
theorem and_opcodeMask (w : Word) : w &&& 0o70000 = opField w ++ (0 : AddrField) := by
  have hmask : (0o70000 : Word) = BitVec.allOnes 3 ++ (0 : AddrField) := by decide
  calc w &&& 0o70000
      = (opField w ++ addrField w) &&& (BitVec.allOnes 3 ++ (0 : AddrField)) := by
        rw [opField_append_addrField, hmask]
    _ = opField w ++ (0 : AddrField) := by
        rw [BitVec.and_append, BitVec.and_allOnes]
        exact congrArg _ BitVec.and_zero

/-! ## The opcode map -/

/-- The opcode map gives back the opcode it was asked for (R103). -/
theorem instrOf_opcode (op : Opcode) (a : AddrField) : (instrOf op a).opcode = op := by
  obtain ⟨n⟩ := op
  fin_cases n <;> rfl

/-- The opcode map puts the address field into whichever instruction it names (R103). -/
theorem instrOf_addr (op : Opcode) (a : AddrField) : (instrOf op a).addr = a := by
  obtain ⟨n⟩ := op
  fin_cases n <;> rfl

/-- The opcode map names every instruction, from its own two fields (R103). -/
theorem instrOf_fields (i : Instr) : instrOf i.opcode i.addr = i := by
  cases i <;> rfl

theorem decode_opcode (w : Word) : (decode w).opcode = opField w := instrOf_opcode _ _

theorem decode_addr (w : Word) : (decode w).addr = addrField w := instrOf_addr _ _

/-- Every instruction is what its word decodes to (R106). -/
theorem decode_encode (i : Instr) : decode (encode i) = i := (decode_append i.opcode i.addr).trans (instrOf_fields i)

/-- Every word is what the instruction it decodes to encodes as (R105). -/
theorem encode_decode (w : Word) : encode (decode w) = w := by
  rw [encode, decode_opcode, decode_addr, opField_append_addrField]

/-- A word that shows an opcode under the mask 0o70000 decodes by that opcode's row of the map (R103). -/
theorem decode_of_masked {w : Word} (op : Opcode) (h : w &&& 0o70000 = op ++ (0 : AddrField)) :
    decode w = instrOf op (w.setWidth 12) := by
  have hop : opField w = op := (BitVec.append_left_inj _).mp ((and_opcodeMask w).symm.trans h)
  rw [decode, hop, addrField_eq_setWidth]

/-! ## The ROM image's bytes -/

/-- The loader's word of the two bytes of a word is that word (R81). -/
theorem imageWord_imageBytes (w : Word) :
    imageWord ((w.setWidth 16).extractLsb' 8 8) ((w.setWidth 16).extractLsb' 0 8) = w := by
  have hbytes : (w.setWidth 16).extractLsb' 8 8 ++ (w.setWidth 16).extractLsb' 0 8 = w.setWidth 16 :=
    BitVec.extractLsb'_append_extractLsb'
  rw [imageWord, hbytes, BitVec.setWidth_setWidth_of_le _ (by decide), BitVec.setWidth_eq]

/-- The two bytes of a word decode as the word does and leave the bytes after them (R81). -/
theorem decodeBytes_imageBytes (w : Word) (rest : List (BitVec 8)) :
    decodeBytes (imageBytes w ++ rest) = .ok (decode w, rest) := by
  simp only [imageBytes, List.cons_append, List.nil_append, decodeBytes, imageWord_imageBytes]

/-! ## Assembler lines -/

/-- A line is well formed exactly if both its fields are in range (R107). -/
theorem rawInstr_wellFormed_iff (r : RawInstr) : r.wellFormed = true ↔ r.op ≤ 7 ∧ r.addr ≤ 0o7777 := by
  simp only [RawInstr.wellFormed, RawInstr.opFits, RawInstr.addrFits, Bool.and_eq_true, decide_eq_true_eq]

/-- The fields of a well-formed line do not overlap in its word, so `|` adds them (R107). -/
theorem opShift_or_addr {op addr : Nat} (h : addr ≤ 0o7777) : (op <<< 12) ||| addr = op * 2 ^ 12 + addr := by
  rw [← Nat.shiftLeft_add_eq_or_of_lt (by omega), Nat.shiftLeft_eq]

/-- An instruction's two numbers, from the word that decodes to it (R101). -/
theorem decode_raw (w : Word) : (decode w).raw = ⟨w.toNat / 4096, w.toNat % 4096⟩ := by
  rw [Instr.raw, decode_opcode, decode_addr, opField_toNat, addrField_toNat]

/-! ## The obligations -/

/-- Settles O8: both directions on words, and on bytes through the word that the two bytes of an instruction hold. -/
theorem decodeAndEncodeAgree : Obligations.DecodeAndEncodeAgree := by
  refine ⟨fun i _ => decode_encode i, encode_decode, fun i rest _ => ?_⟩
  rw [encodeBytes, decodeBytes_imageBytes, decode_encode]

/-- Settles O9: each pattern is an opcode before an empty address field, and the last two clauses are the two fields. -/
theorem opcodeMapDecodesEveryWord : Obligations.OpcodeMapDecodesEveryWord := fun w =>
  ⟨decode_of_masked 0, decode_of_masked 1, decode_of_masked 2, decode_of_masked 3, decode_of_masked 4, decode_of_masked 5,
    decode_of_masked 6, decode_of_masked 7, (congrArg BitVec.toNat (decode_opcode w)).trans (opField_toNat w),
    (congrArg BitVec.toNat (decode_addr w)).trans (addrField_toNat w)⟩

/-- Settles O11: a line in range encodes as the sum of its shifted opcode and its address, which division by 2^12 takes
apart again; a line out of range is not well formed. -/
theorem assemblerLinesEncodeTheirFields : Obligations.AssemblerLinesEncodeTheirFields := by
  intro r
  refine ⟨fun h => ?inRange, fun h => ?outOfRange⟩
  case inRange =>
    have hword : (BitVec.ofNat 15 (r.op <<< 12 ||| r.addr)).toNat = r.op * 2 ^ 12 + r.addr := by
      rw [opShift_or_addr h.2, BitVec.toNat_ofNat]
      omega
    refine ⟨_, if_pos ((rawInstr_wellFormed_iff r).mpr h), hword, ?_⟩
    rw [decode_raw, hword]
    congr 1 <;> omega
  case outOfRange =>
    refine if_neg fun hwf => ?_
    have := (rawInstr_wellFormed_iff r).mp hwf
    omega

/-- Settles O10: each is one word of the table. -/
theorem specWordsDecode : Obligations.SpecWordsDecode := by
  unfold Obligations.SpecWordsDecode
  decide

end Sys2Proof.Machine
end

section
/-! PROOF. The whole-machine statements (spec/10_state.md section 6; spec/41_step_and_dispatch.md): what one step can change,
said once, and what a run of any length keeps or respects because each of its steps does. -/

namespace Sys2Proof.Machine

/-! ## What one step can change -/

/-- An address that resolves to an erasable cell is that cell's offset, so no data write reaches one below offset 16
(R63, R64). -/
theorem resolve_erasable_offset {s : State} {addr : Nat} {b : Fin 2} {off : Fin 1024}
    (h : resolve s addr = .erasable b off) : off.val = addr ∧ 16 ≤ off.val := by
  obtain ⟨hlo, hhi, -, rfl⟩ := resolve_erasable h
  have hoff : (lowTenBits addr).val = addr := Nat.mod_eq_of_lt (by omega)
  omega

/-- A handler leaves erasable memory alone or writes one cell of it, at offset 16 or above. -/
theorem exec_erasable_cases {i : Instr} {s t : State} (h : exec i s = .next t) :
    t.erasable = s.erasable ∨
      ∃ b off v, 16 ≤ off.val ∧ t.erasable = (s.writeErasable b off v).erasable := by
  obtain ⟨a, z, rfl⟩ | ⟨addr, v, a, rfl⟩ := exec_cases h
  · exact .inl rfl
  · obtain ⟨b, off, hr, hw⟩ | ⟨-, hw⟩ := memWrite_cases s addr v
    · exact .inr ⟨b, off, v, (resolve_erasable_offset hr).2, by rw [State.setA_erasable, hw]⟩
    · exact .inl (by rw [State.setA_erasable, hw])

/-- A handler changes no field but A, Z and erasable memory. -/
theorem exec_frame {i : Instr} {s t : State} (h : exec i s = .next t) :
    t = { s with A := t.A, Z := t.Z, erasable := t.erasable } := by
  obtain ⟨a, z, rfl⟩ | ⟨addr, v, a, rfl⟩ := exec_cases h
  · rfl
  · rw [memWrite_eq]
    rfl

/-- A step leaves erasable memory alone or writes one cell of it, at offset 16 or above. -/
theorem step_erasable_cases {s t : State} (h : step s = .next t) :
    t.erasable = s.erasable ∨
      ∃ b off v, 16 ≤ off.val ∧ t.erasable = (s.writeErasable b off v).erasable := by
  obtain ⟨u, hu, rfl⟩ := step_cases h
  exact (exec_erasable_cases hu :)

/-- A step changes no field but A, Z, IR, cycles and erasable memory. -/
theorem step_frame {s t : State} (h : step s = .next t) :
    t = { s with A := t.A, Z := t.Z, IR := t.IR, cycles := t.cycles, erasable := t.erasable } := by
  obtain ⟨u, hu, rfl⟩ := step_cases h
  rw [exec_frame hu]
  rfl

theorem step_fixed {s t : State} (h : step s = .next t) : t.fixed = s.fixed := by
  rw [step_frame h]

/-- A step changes no erasable word but the one its write names, which is at offset 16 or above. -/
theorem step_readErasable {s t : State} (h : step s = .next t) :
    (∀ b off, t.readErasable b off = s.readErasable b off) ∨
      ∃ (b₀ : Fin 2) (off₀ : Fin 1024), 16 ≤ off₀.val ∧
        ∀ b off, ¬(b = b₀ ∧ off = off₀) → t.readErasable b off = s.readErasable b off := by
  obtain he | ⟨b₀, off₀, v, hoff, he⟩ := step_erasable_cases h
  · exact .inl fun b off => by rw [State.readErasable, he, State.readErasable]
  · refine .inr ⟨b₀, off₀, hoff, fun b off hne => ?_⟩
    rw [State.readErasable, he]
    exact s.readErasable_writeErasable_of_ne v hne

/-! ## What a run keeps -/

/-- A reflexive and transitive relation that every step establishes holds between the two ends of a run of any length. -/
theorem runSteps_rel {R : State → State → Prop} (hrefl : ∀ s, R s s) (htrans : ∀ {s t u}, R s t → R t u → R s u)
    (hstep : ∀ {s t}, step s = .next t → R s t) (n : Nat) (s : State) : ∃ t, runSteps n s = .next t ∧ R s t := by
  induction n generalizing s with
  | zero => exact ⟨s, rfl, hrefl s⟩
  | succ n ih =>
    obtain ⟨u, hu⟩ := step_completes s
    obtain ⟨t, ht, hut⟩ := ih u
    exact ⟨t, (runSteps_succ hu).trans ht, htrans (hstep hu) hut⟩

theorem SameHostOwned.refl (s : State) : SameHostOwned s s :=
  ⟨rfl, rfl, rfl, rfl, rfl, rfl, rfl, fun _ => rfl, fun _ _ _ => rfl⟩

theorem SameHostOwned.trans {s t u : State} (h : SameHostOwned s t) (h' : SameHostOwned t u) : SameHostOwned s u := by
  obtain ⟨hL, hQ, hEB, hFB, hBB, hinp, hout, hfix, hera⟩ := h
  obtain ⟨hL', hQ', hEB', hFB', hBB', hinp', hout', hfix', hera'⟩ := h'
  exact ⟨hL'.trans hL, hQ'.trans hQ, hEB'.trans hEB, hFB'.trans hFB, hBB'.trans hBB, hinp'.trans hinp, hout'.trans hout,
    fun i => (hfix' i).trans (hfix i), fun b off hoff => (hera' b off hoff).trans (hera b off hoff)⟩

/-- A step keeps what only the host may change: the fields by the step's frame, the low erasable words because its one
write is above them (R36, R42). -/
theorem step_sameHostOwned {s t : State} (h : step s = .next t) : SameHostOwned s t := by
  have hlow : ∀ b off, off.val ≤ 15 → t.readErasable b off = s.readErasable b off := by
    intro b off hoff
    obtain hall | ⟨b₀, off₀, hoff₀, hbut⟩ := step_readErasable h
    · exact hall b off
    · exact hbut b off fun e => by have := congrArg Fin.val e.2; omega
  have hfix : ∀ i, t.readFixed i = s.readFixed i := fun i => by rw [State.readFixed, step_fixed h, State.readFixed]
  refine ⟨?_, ?_, ?_, ?_, ?_, ?_, ?_, hfix, hlow⟩ <;> rw [step_frame h]

/-- A step keeps the invariant, because it makes at most one write inside the erasable array. -/
theorem State.Inv.step {s t : State} (hs : s.Inv) (h : Machine.step s = .next t) : t.Inv := by
  obtain he | ⟨b, off, v, -, he⟩ := step_erasable_cases h
  · exact (State.inv_congr he (step_fixed h)).mpr hs
  · exact (State.inv_congr he (step_fixed h :)).mpr (hs.writeErasable b off v)

/-! ## What cannot be read has no influence -/

section Visible

variable {s s' : State} (h : SameVisible s s')
include h

/-- A data read sees nothing but what an instruction can read (R31, R69). -/
theorem SameVisible.memRead (addr : Nat) : Machine.memRead s' addr = Machine.memRead s addr := by
  obtain ⟨hA, hL, hQ, hEB, hFB, hZ, hBB, hinp, hera, hfix⟩ := h
  by_cases hreg : addr ≤ 0o17
  · have hslot : ∀ k, s'.inp[slotChannel k] = s.inp[slotChannel k] := hinp
    rw [memRead_of_regFile s' hreg, memRead_of_regFile s hreg]
    simp only [regRead, hA, hL, hQ, hEB, hFB, hZ, hBB, hslot]
  · exact memRead_congr hEB hFB hera hfix (by omega)

/-- A fetch sees nothing but what an instruction can read (R71). -/
theorem SameVisible.fetch (addr : Nat) : Machine.fetch s' addr = Machine.fetch s addr := by
  obtain ⟨-, -, -, hEB, hFB, -, -, -, hera, hfix⟩ := h
  exact fetch_congr hEB hFB hera hfix addr

theorem SameVisible.setA (v : Word) : SameVisible (s.setA v) (s'.setA v) := by
  obtain ⟨-, hrest⟩ := h
  exact ⟨rfl, hrest⟩

theorem SameVisible.setZ (v : Word) : SameVisible (s.setZ v) (s'.setZ v) := by
  obtain ⟨hA, hL, hQ, hEB, hFB, -, hrest⟩ := h
  exact ⟨hA, hL, hQ, hEB, hFB, rfl, hrest⟩

theorem SameVisible.writeErasable (b : Fin 2) (off : Fin 1024) (v : Word) :
    SameVisible (s.writeErasable b off v) (s'.writeErasable b off v) := by
  obtain ⟨hA, hL, hQ, hEB, hFB, hZ, hBB, hinp, hera, hfix⟩ := h
  exact ⟨hA, hL, hQ, hEB, hFB, hZ, hBB, hinp, congrArg (Memory.write · (erasableIndex b off) v) hera, hfix⟩

/-- A data write reaches the same cell in both states (R70). -/
theorem SameVisible.memWrite (addr : Nat) (v : Word) :
    SameVisible (Machine.memWrite s addr v) (Machine.memWrite s' addr v) := by
  have ⟨_, _, _, hEB, hFB, _⟩ := h
  have hr : resolve s' addr = resolve s addr := resolve_congr hEB hFB addr
  obtain ⟨b, off, he, hw⟩ | ⟨hne, hw⟩ := memWrite_cases s addr v
  · rw [hw, memWrite_of_erasable v (hr.trans he)]
    exact h.writeErasable b off v
  · rw [hw, memWrite_of_not_erasable v fun b off => hr ▸ hne b off]
    exact h

/-- Every handler reads and writes what an instruction can read, and nothing else. -/
theorem SameVisible.exec {i : Instr} {t t' : State} (ht : Machine.exec i s = .next t)
    (ht' : Machine.exec i s' = .next t') : SameVisible t t' := by
  have ⟨hA, _, _, _, _, hZ, _⟩ := h
  cases i with
  | tc a => cases ht; cases ht'; exact h.setZ _
  | xch a =>
    cases ht; cases ht'
    rw [h.memRead, hA]
    exact (h.memWrite _ _).setA _
  | ts a =>
    cases ht; cases ht'
    rw [hA]
    exact h.memWrite _ _
  | ca a =>
    cases ht; cases ht'
    rw [h.memRead]
    exact h.setA _
  | ccs a =>
    cases ht; cases ht'
    rw [h.memRead, hZ]
    exact (h.setA _).setZ _
  | index a =>
    cases ht; cases ht'
    rw [hZ, h.memRead, h.memRead]
    exact h.memWrite _ _
  | op6 a => cases ht; cases ht'; exact h
  | op7 a => cases ht; cases ht'; exact h

/-- Two states that agree on what an instruction can read take steps to states that do, and fetch the same word into IR. -/
theorem SameVisible.step {t t' : State} (ht : Machine.step s = .next t) (ht' : Machine.step s' = .next t') :
    SameVisible t t' ∧ t'.IR = t.IR := by
  obtain ⟨u, hu, rfl⟩ := step_cases ht
  obtain ⟨u', hu', rfl⟩ := step_cases ht'
  have ⟨_, _, _, _, _, hZ, _⟩ := h
  have hw : Machine.fetch s' s'.Z.toNat = Machine.fetch s s.Z.toNat := by rw [hZ, h.fetch]
  rw [hw] at hu'
  have hpre : SameVisible (incrPhase (recordPhase (Machine.fetch s s.Z.toNat) s))
      (incrPhase (recordPhase (Machine.fetch s s.Z.toNat) s')) := by
    rw [incrPhase, recordPhase_Z, incrPhase, recordPhase_Z, hZ]
    exact SameVisible.setZ h _
  exact ⟨(hpre.exec hu hu' :), (exec_IR hu').trans (exec_IR hu).symm⟩

/-- Two states that agree on what an instruction can read end runs of one length in states that do; after the first step
IR agrees as well. -/
theorem SameVisible.runSteps (n : Nat) :
    ∃ t t', Machine.runSteps n s = .next t ∧ Machine.runSteps n s' = .next t' ∧ SameVisible t t' ∧
      (0 < n → t'.IR = t.IR) := by
  induction n generalizing s s' with
  | zero => exact ⟨s, s', rfl, rfl, h, fun hn => absurd hn (Nat.lt_irrefl 0)⟩
  | succ n ih =>
    obtain ⟨u, hu⟩ := step_completes s
    obtain ⟨u', hu'⟩ := step_completes s'
    obtain ⟨hvis, hIR⟩ := h.step hu hu'
    obtain ⟨t, t', ht, ht', htt', htIR⟩ := ih hvis
    refine ⟨t, t', (runSteps_succ hu).trans ht, (runSteps_succ hu').trans ht', htt', fun _ => ?_⟩
    cases n with
    | zero => cases ht; cases ht'; exact hIR
    | succ n => exact htIR n.succ_pos

end Visible

/-! ## TC self -/

/-- A step on a `TC self` changes nothing but IR and cycles (R234). -/
theorem step_of_tcSelf {s : State} {a : AddrField} (hZ : s.Z.toNat = a.toNat)
    (hw : fetch s s.Z.toNat = (0 : Opcode) ++ a) :
    step s = .next { s with IR := (0 : Opcode) ++ a, cycles := s.cycles + 1 } := by
  have hself : a.setWidth 15 = s.Z := by rw [← aluNormalize_addrField, ← hZ, aluNormalize_word]
  rw [step_of_tc hw, hself]

/-! ## The obligations -/

/-- Settles O20, by induction on the number of steps: the state after one step still fetches the loop word. -/
theorem tcSelfLoopsForever : Obligations.TcSelfLoopsForever := by
  intro a s n hZ hw
  induction n generalizing s with
  | zero => exact runSteps_succ (step_of_tcSelf hZ hw)
  | succ n ih =>
    have hfetch : fetch { s with IR := (0 : Opcode) ++ a, cycles := s.cycles + 1 } s.Z.toNat = fetch s s.Z.toNat :=
      fetch_congr rfl rfl rfl rfl _
    have hrun := ih { s with IR := (0 : Opcode) ++ a, cycles := s.cycles + 1 } hZ (hfetch.trans hw)
    rw [runSteps_succ (step_of_tcSelf hZ hw), hrun, Nat.add_right_comm s.cycles 1]
    rfl

/-- Settles O40: the relation is reflexive and transitive and every step establishes it, so every run does. -/
theorem runKeepsWhatOnlyTheHostMayChange : Obligations.RunKeepsWhatOnlyTheHostMayChange :=
  runSteps_rel SameHostOwned.refl SameHostOwned.trans step_sameHostOwned

/-- Settles O43, by the induction on the run's length. -/
theorem unreadableStateDoesNotInfluenceARun : Obligations.UnreadableStateDoesNotInfluenceARun :=
  fun n _ _ h => h.runSteps n

/-- Settles O44: the step completes, and its at most one write keeps both arrays canonical. -/
theorem stepKeepsTheInvariant : Obligations.StepKeepsTheInvariant := by
  intro s hs
  obtain ⟨t, ht⟩ := step_completes s
  exact ⟨t, ht, hs.step ht⟩

/-- Settles O42: a cell that changed is the one cell the step's write names. -/
theorem stepChangesAtMostOneWord : Obligations.StepChangesAtMostOneWord := by
  intro s
  obtain ⟨t, ht⟩ := step_completes s
  refine ⟨t, ht, step_fixed ht, fun b off b' off' hne hne' => ?_⟩
  obtain hall | ⟨b₀, off₀, hoff₀, hbut⟩ := step_readErasable ht
  · exact absurd (hall b off) hne
  · obtain ⟨rfl, rfl⟩ := not_not.mp fun h => hne (hbut b off h)
    obtain ⟨rfl, rfl⟩ := not_not.mp fun h => hne' (hbut b' off' h)
    exact ⟨rfl, rfl, hoff₀⟩

end Sys2Proof.Machine
end

section
/-! PROOF. The statements about the address decode, the register file and the fetch path (spec/20_memory.md R60 to R71;
spec/10_state.md R29 to R31), and that a canonical array is determined by what its cells hold. -/

namespace Sys2Proof.Machine

/-! ## The address map -/

/-- Bit 9 of an address says in which half of its 1024-word window it lies. -/
theorem testBit_nine (n : Nat) : n.testBit 9 = decide (n / 512 % 2 = 1) := Nat.testBit_eq_decide_div_mod_eq

/-- The lower half of the erasable window takes its bank from EB bit 0 (R64). -/
theorem ebank_of_lower (eb : Word) {addr : Nat} (h : addr ≤ 0o777) :
    ebank eb addr = if eb.getLsbD 0 then 1 else 0 := by
  have hbit : addr.testBit 9 = false := by rw [testBit_nine, decide_eq_false_iff_not]; omega
  rw [ebank, hbit]
  rfl

/-- The upper half of the erasable window takes its bank from EB bit 1 (R64). -/
theorem ebank_of_upper (eb : Word) {addr : Nat} (h1 : 0o1000 ≤ addr) (h2 : addr ≤ 0o1777) :
    ebank eb addr = if eb.getLsbD 1 then 1 else 0 := by
  have hbit : addr.testBit 9 = true := by rw [testBit_nine, decide_eq_true_iff]; omega
  rw [ebank, hbit]
  rfl

/-- No base is subtracted from an erasable address (R64). -/
theorem lowTenBits_of_erasable {addr : Nat} (h : addr ≤ 0o1777) : lowTenBits addr = ⟨addr, by omega⟩ :=
  Fin.ext (Nat.mod_eq_of_lt (by omega))

/-- The fixed-fixed bank of an address is its bit 9 (R65). -/
theorem fixedFixedBank_val (addr : Nat) : (fixedFixedBank addr).val = addr / 512 % 2 := by
  rw [fixedFixedBank, testBit_nine]
  split
  · next h => exact (of_decide_eq_true h).symm
  · next h => exact ((Nat.mod_two_eq_zero_or_one _).resolve_right fun e => h (decide_eq_true e)).symm

/-- The window 0o2000..0o3777 is 512 words of bank 0, then 512 of bank 1 (R65). -/
theorem resolve_of_fixedFixed (s : State) {addr : Nat} (h1 : 0o2000 ≤ addr) (h2 : addr ≤ 0o3777) (i : Fin 36864)
    (hi : 1024 * (addr / 512 % 2) + addr % 512 = i.val) : resolve s addr = .fixed i := by
  have hreg : ¬ addr ≤ Config.regFileLimit := by simp only [Config.regFileLimit]; omega
  have hera : ¬ addr ≤ Config.erasableLimit := by simp only [Config.erasableLimit]; omega
  rw [resolve, if_neg hreg, if_neg hera, if_pos h2]
  refine congrArg Target.fixed (Fin.ext ?_)
  rw [← hi, ← fixedFixedBank_val]
  rfl

/-- The window 0o4000..0o7777 reaches its low 10 bits in the bank FB selects (R66). -/
theorem resolve_of_switched (s : State) {addr : Nat} (h1 : 0o4000 ≤ addr) (h2 : addr ≤ 0o7777) (i : Fin 36864)
    (hi : 1024 * min s.FB.toNat 35 + addr % 1024 = i.val) : resolve s addr = .fixed i := by
  have hreg : ¬ addr ≤ Config.regFileLimit := by simp only [Config.regFileLimit]; omega
  have hera : ¬ addr ≤ Config.erasableLimit := by simp only [Config.erasableLimit]; omega
  have hfix : ¬ addr ≤ Config.fixedFixedLimit := by simp only [Config.fixedFixedLimit]; omega
  rw [resolve, if_neg hreg, if_neg hera, if_neg hfix, if_pos h2]
  exact congrArg Target.fixed (Fin.ext hi)

/-! ## The channel slots -/

/-- Slot `k` of the register file reads input channel `k` (R29). -/
theorem regRead_slot (s : State) (k : Fin 8) : regRead s ⟨7 + k.val, by omega⟩ = s.inp[k.val] := by
  fin_cases k <;> rfl

/-- The data address of slot `k` reads input channel `k` (R29, R69). -/
theorem memRead_slot (s : State) (k : Fin 8) : memRead s (7 + k.val) = s.inp[k.val] := by
  have ho : Fin.ofNat 16 (7 + k.val) = ⟨7 + k.val, by omega⟩ := Fin.ext (Nat.mod_eq_of_lt (by omega))
  rw [memRead_of_regFile s (by omega), ho, regRead_slot]

/-- The address field of slot `k` holds its address. -/
theorem slotField_toNat (k : Fin 8) : (BitVec.ofNat 12 (7 + k.val)).toNat = 7 + k.val :=
  Nat.mod_eq_of_lt (by omega)

/-- CA of slot `k` loads input channel `k` (R29, R172). -/
theorem exec_ca_slot (s : State) (k : Fin 8) :
    exec (.ca (BitVec.ofNat 12 (7 + k.val))) s = .next { s with A := s.inp[k.val] } := by
  rw [exec_ca, slotField_toNat, memRead_slot]
  rfl

/-- XCH of slot `k` loads input channel `k` and stores nothing (R29, R170). -/
theorem exec_xch_slot (s : State) (k : Fin 8) :
    exec (.xch (BitVec.ofNat 12 (7 + k.val))) s = .next { s with A := s.inp[k.val] } :=
  (exec_xch_eq_exec_ca s (.inl (by rw [slotField_toNat]; omega))).trans (exec_ca_slot s k)

/-! ## The fetch path -/

/-- Up to 0o1777 a fetch reads the erasable cell EB selects, at the address as offset (R71). -/
theorem fetch_of_erasable (s : State) {addr : Nat} (h : addr ≤ 0o1777) :
    fetch s addr = s.readErasable (ebank s.EB addr) ⟨addr, by omega⟩ := by
  rw [fetch, fetchResolve, if_pos h, erasableTarget, lowTenBits_of_erasable h, readTarget]

/-- Outside the register file's range the two decodes are one (R71). -/
theorem fetchResolve_eq_resolve (s : State) {addr : Nat} (h : 0o20 ≤ addr) : fetchResolve s addr = resolve s addr := by
  unfold fetchResolve
  split
  · next he => exact (resolve_of_erasable s h he).symm
  · rfl

/-- Outside the register file's range a fetch is a data read (R71). -/
theorem fetch_eq_memRead (s : State) {addr : Nat} (h : 0o20 ≤ addr) : fetch s addr = memRead s addr := by
  rw [fetch, fetchResolve_eq_resolve s h, memRead]

/-- No fetch resolves to a register (R71). -/
theorem fetchResolve_ne_reg (s : State) (addr : Nat) (o : Fin 16) : fetchResolve s addr ≠ .reg o := by
  unfold fetchResolve
  split
  · simp [erasableTarget]
  · next he => exact resolve_ne_reg s (by simp only [Config.erasableLimit] at he; omega) o

/-- A fetch does not see a data write whose address resolves to another cell. -/
theorem fetch_memWrite_of_ne (s : State) {m addr : Nat} (v : Word) (hne : fetchResolve s m ≠ resolve s addr) :
    fetch (memWrite s addr v) m = fetch s m := by
  obtain ⟨hfixed, herasable⟩ := sameCellsBut_memWrite s addr v
  have hr : fetchResolve (memWrite s addr v) m = fetchResolve s m := fetchResolve_congr (by simp) (by simp) m
  rw [fetch, fetch, hr]
  cases hm : fetchResolve s m with
  | reg o => exact absurd hm (fetchResolve_ne_reg s m o)
  | erasable b off => exact herasable b off fun e => hne (hm.trans e.symm)
  | fixed i => exact hfixed i
  | nothing => rfl

/-- A fetch that no data write can reach: below 0o20 the cell has no data address, and from 0o2000 up it is no erasable
cell. -/
theorem fetchResolve_ne_resolve {s : State} {m addr : Nat} (hm : m ≤ 0o17 ∨ 0o2000 ≤ m) {b : Fin 2} {off : Fin 1024}
    (h : resolve s addr = .erasable b off) : fetchResolve s m ≠ resolve s addr := by
  intro e
  rw [h] at e
  obtain hlow | hhigh := hm
  · rw [fetchResolve, if_pos (by simp only [Config.erasableLimit]; omega), erasableTarget,
      lowTenBits_of_erasable (by omega)] at e
    cases e
    have := (resolve_erasable_offset h).2
    simp only at this
    omega
  · rw [fetchResolve_eq_resolve s (by omega)] at e
    have := (resolve_erasable e).2.1
    omega

/-- What a fetch below 0o20 or from 0o2000 up returns, no data write changes. -/
theorem fetch_memWrite_of_unreachable (s : State) {m : Nat} (addr : Nat) (v : Word) (hm : m ≤ 0o17 ∨ 0o2000 ≤ m) :
    fetch (memWrite s addr v) m = fetch s m := by
  obtain ⟨b, off, hr, -⟩ | ⟨-, hw⟩ := memWrite_cases s addr v
  · exact fetch_memWrite_of_ne s v (fetchResolve_ne_resolve hm hr)
  · rw [hw]

/-! ## Canonical arrays -/

/-- Two canonical lists that hold the same word in every cell are equal: the lower of two different first indices would be
listed in one and unlisted in the other. -/
theorem Memory.eq_of_read_eq {size lo : Nat} {m m' : Memory} (hm : Memory.wfFrom size lo m = true)
    (hm' : Memory.wfFrom size lo m' = true) (h : ∀ i < size, m.read i = m'.read i) : m = m' := by
  induction m generalizing lo m' with
  | nil =>
    cases m' with
    | nil => rfl
    | cons c' m' =>
      obtain ⟨-, hk', hw', -⟩ := (Memory.wfFrom_cons ..).mp hm'
      exact absurd (h c'.1 hk').symm (by simpa [Memory.read] using hw')
  | cons c m ih =>
    obtain ⟨k, w⟩ := c
    obtain ⟨hlo, hk, hw, hrest⟩ := (Memory.wfFrom_cons ..).mp hm
    have hread : Memory.read ((k, w) :: m) k = w := if_pos rfl
    cases m' with
    | nil => exact absurd (hread.symm.trans (h k hk)) hw
    | cons c' m' =>
      obtain ⟨k', w'⟩ := c'
      obtain ⟨hlo', hk', hw', hrest'⟩ := (Memory.wfFrom_cons ..).mp hm'
      have hread' : Memory.read ((k', w') :: m') k' = w' := if_pos rfl
      obtain hlt | rfl | hgt := Nat.lt_trichotomy k k'
      · have hunlisted := Memory.read_of_lt (i := k) ((Memory.wfFrom_cons ..).mpr ⟨Nat.le_refl k', hk', hw', hrest'⟩) hlt
        exact absurd (hread.symm.trans ((h k hk).trans hunlisted)) hw
      · have hww : w = w' := hread.symm.trans ((h k hk).trans hread')
        have htail : m = m' := ih hrest hrest' fun i hi => by
          by_cases hki : i ≤ k
          · rw [Memory.read_of_lt hrest (by omega), Memory.read_of_lt hrest' (by omega)]
          · have hne : k ≠ i := by omega
            simpa only [Memory.read, if_neg hne] using h i hi
        rw [hww, htail]
      · have hunlisted := Memory.read_of_lt (i := k') ((Memory.wfFrom_cons ..).mpr ⟨Nat.le_refl k, hk, hw, hrest⟩) hgt
        exact absurd (hread'.symm.trans ((h k' hk').symm.trans hunlisted)) hw'

/-- Every index of the erasable array is a bank's and an offset's. -/
theorem exists_erasableIndex {i : Nat} (h : i < Config.erasableWords) : ∃ b off, erasableIndex b off = i := by
  simp only [Config.erasableWords] at h
  exact ⟨⟨i / 1024, by omega⟩, ⟨i % 1024, by omega⟩, Nat.div_add_mod i 1024⟩

/-! ## The obligations -/

/-- Settles O32, window by window. -/
theorem addressMapOfTheDataPath : Obligations.AddressMapOfTheDataPath := by
  intro s n
  refine ⟨fun h => ?reg, fun h1 h => ?lower, fun h1 h => ?upper, fun h1 h => ?bank0, fun h1 h => ?bank1, fun h1 h => ?low,
    fun h1 h => ?high, resolve_of_undecoded s⟩
  case reg =>
    rw [resolve_of_regFile s h]
    exact congrArg Target.reg (Fin.ext (Nat.mod_eq_of_lt (by omega)))
  case lower => rw [resolve_of_erasable s h1 (by omega), ebank_of_lower _ h, lowTenBits_of_erasable (by omega)]
  case upper => rw [resolve_of_erasable s (by omega) h, ebank_of_upper _ h1 h, lowTenBits_of_erasable h]
  case bank0 => exact resolve_of_fixedFixed s h1 (by omega) _ (by simp only; omega)
  case bank1 => exact resolve_of_fixedFixed s (by omega) h _ (by simp only; omega)
  case low => exact resolve_of_switched s h1 (by omega) _ (by simp only; omega)
  case high => exact resolve_of_switched s (by omega) h _ (by simp only; omega)

/-- Settles O36: each register's address is its register-file read at one offset, and the slots read the channels. -/
theorem registerFileReadsInOrder : Obligations.RegisterFileReadsInOrder := fun s =>
  ⟨fun k => ⟨exec_ca_slot s k, exec_xch_slot s k⟩, memRead_of_regFile s (addr := 0) (by decide),
    memRead_of_regFile s (addr := 1) (by decide), memRead_of_regFile s (addr := 2) (by decide),
    memRead_of_regFile s (addr := 3) (by decide), memRead_of_regFile s (addr := 4) (by decide),
    memRead_of_regFile s (addr := 5) (by decide), memRead_of_regFile s (addr := 6) (by decide), memRead_slot s,
    memRead_of_regFile s (addr := 15) (by decide)⟩

/-- Settles O37: below 0o2000 by the cell a fetch there reads, elsewhere because the two decodes are one. -/
theorem fetchNeverReturnsARegister : Obligations.FetchNeverReturnsARegister := by
  refine ⟨fun s n => ⟨fun h => ?_, fun h1 h => ?_, fetch_eq_memRead s⟩, fun s t n h heb he => ?_⟩
  · rw [fetch_of_erasable s (by omega), ebank_of_lower _ h]
  · rw [fetch_of_erasable s h, ebank_of_upper _ h1 h]
  · rw [fetch_of_erasable t h, fetch_of_erasable s h, heb, State.readErasable, he, State.readErasable]

/-- Settles O38: in 0o20..0o1777 a fetch is the data read that returns what was stored. -/
theorem fetchSeesWhatWasStored : Obligations.FetchSeesWhatWasStored := by
  intro s n v
  refine ⟨fun h1 h2 hs => ?_, fun m => fetch_memWrite_of_unreachable s n v, fun m => fetch_memWrite_of_ne s v⟩
  rw [fetch_eq_memRead _ h1, memRead_memWrite_same hs v h1 h2]

/-- Settles O39: the observed fields are equal, and so are the canonical arrays. -/
theorem equalContentsAreEqualStates : Obligations.EqualContentsAreEqualStates := by
  intro s t hs ht hobs hera hfix
  have herasable : s.erasable = t.erasable := Memory.eq_of_read_eq hs.1 ht.1 fun i hi => by
    obtain ⟨b, off, rfl⟩ := exists_erasableIndex hi
    exact hera b off
  have hfixed : s.fixed = t.fixed := Memory.eq_of_read_eq hs.2 ht.2 fun i hi => hfix ⟨i, hi⟩
  obtain ⟨⟩ := s
  obtain ⟨⟩ := t
  cases herasable
  cases hfixed
  cases hobs
  rfl

end Sys2Proof.Machine
end

section
/-! PROOF. The statements about reset and the host's ports (spec/70_reset_and_hazards.md section 1; spec/60_exceptions.md
R232; spec/10_state.md R32, R33; spec/20_memory.md R78): the laws of each port, and that every operation completes and keeps
the invariant. -/

namespace Sys2Proof.Machine

/-! ## The bank accessors -/

theorem getErasable_of_inRange (s : State) (b : Fin 2) (off : Fin 1024) :
    getErasable s b.val off.val = s.readErasable b off :=
  dif_pos ⟨b.isLt, off.isLt⟩

theorem getErasable_of_outOfRange (s : State) {b off : Nat} (h : ¬(b < 2 ∧ off < 1024)) : getErasable s b off = 0 :=
  dif_neg h

theorem setErasable_of_inRange (s : State) (b : Fin 2) (off : Fin 1024) (v : Nat) :
    setErasable s b.val off.val v = s.writeErasable b off (BitVec.ofNat 15 v) :=
  dif_pos ⟨b.isLt, off.isLt⟩

theorem setErasable_of_outOfRange (s : State) {b off : Nat} (v : Nat) (h : ¬(b < 2 ∧ off < 1024)) :
    setErasable s b off v = s :=
  dif_neg h

theorem getFixed_of_inRange (s : State) (i : Fin 36864) : getFixed s i.val = s.readFixed i := dif_pos i.isLt

theorem getFixed_of_outOfRange (s : State) {i : Nat} (h : ¬i < 36864) : getFixed s i = 0 := dif_neg h

theorem setFixed_of_inRange (s : State) (i : Fin 36864) (v : Nat) :
    setFixed s i.val v = s.writeFixed i (BitVec.ofNat 15 v) :=
  dif_pos i.isLt

theorem setFixed_of_outOfRange (s : State) {i : Nat} (v : Nat) (h : ¬i < 36864) : setFixed s i v = s := dif_neg h

/-- What `setErasable` can do: it writes the named cell, or, out of range, nothing (R78). -/
theorem setErasable_cases (s : State) (b off v : Nat) :
    (∃ (b' : Fin 2) (off' : Fin 1024), b = b'.val ∧ off = off'.val ∧
        setErasable s b off v = s.writeErasable b' off' (BitVec.ofNat 15 v)) ∨
      (¬(b < 2 ∧ off < 1024) ∧ setErasable s b off v = s) := by
  by_cases h : b < 2 ∧ off < 1024
  · exact .inl ⟨⟨b, h.1⟩, ⟨off, h.2⟩, rfl, rfl, setErasable_of_inRange s ⟨b, h.1⟩ ⟨off, h.2⟩ v⟩
  · exact .inr ⟨h, setErasable_of_outOfRange s v h⟩

/-- What `setFixed` can do: it writes the named cell, or, out of range, nothing (R78). -/
theorem setFixed_cases (s : State) (i v : Nat) :
    (∃ i' : Fin 36864, i = i'.val ∧ setFixed s i v = s.writeFixed i' (BitVec.ofNat 15 v)) ∨
      (¬i < 36864 ∧ setFixed s i v = s) := by
  by_cases h : i < 36864
  · exact .inl ⟨⟨i, h⟩, rfl, setFixed_of_inRange s ⟨i, h⟩ v⟩
  · exact .inr ⟨h, setFixed_of_outOfRange s v h⟩

/-- An erasable read after an erasable write, in a state that meets the invariant. -/
theorem State.readErasable_writeErasable {s : State} (hs : s.Inv) (b b' : Fin 2) (off off' : Fin 1024) (v : Word) :
    (s.writeErasable b off v).readErasable b' off' =
      if b' = b ∧ off' = off then v else s.readErasable b' off' := by
  split
  · next h =>
    obtain ⟨rfl, rfl⟩ := h
    exact readErasable_writeErasable_same hs b' off' v
  · next h => exact s.readErasable_writeErasable_of_ne v h

/-- `setErasable` stores its low 15 bits in its own cell and leaves every other erasable cell alone (R78). -/
theorem getErasable_setErasable {s : State} (hs : s.Inv) (b off v b' off' : Nat) :
    getErasable (setErasable s b off v) b' off' =
      if b' = b ∧ off' = off ∧ b < 2 ∧ off < 1024 then BitVec.ofNat 15 v else getErasable s b' off' := by
  obtain ⟨b, off, rfl, rfl, hset⟩ | ⟨hout, hset⟩ := setErasable_cases s b off v
  · rw [hset]
    by_cases h' : b' < 2 ∧ off' < 1024
    · obtain ⟨b', rfl⟩ : ∃ c : Fin 2, b' = c.val := ⟨⟨b', h'.1⟩, rfl⟩
      obtain ⟨off', rfl⟩ : ∃ c : Fin 1024, off' = c.val := ⟨⟨off', h'.2⟩, rfl⟩
      simp only [getErasable_of_inRange, State.readErasable_writeErasable hs, Fin.ext_iff, b.isLt, off.isLt, and_true]
    · rw [getErasable_of_outOfRange _ h', getErasable_of_outOfRange _ h', if_neg (by omega)]
  · rw [hset, if_neg fun h => hout h.2.2]

/-- `setFixed` stores its low 15 bits in its own cell and leaves every other fixed cell alone (R78). -/
theorem getFixed_setFixed {s : State} (hs : s.Inv) (i v i' : Nat) :
    getFixed (setFixed s i v) i' = if i' = i ∧ i < 36864 then BitVec.ofNat 15 v else getFixed s i' := by
  obtain ⟨i, rfl, hset⟩ | ⟨hout, hset⟩ := setFixed_cases s i v
  · rw [hset]
    by_cases h' : i' < 36864
    · obtain ⟨i', rfl⟩ : ∃ c : Fin 36864, i' = c.val := ⟨⟨i', h'⟩, rfl⟩
      rw [getFixed_of_inRange, getFixed_of_inRange]
      split
      · next h =>
        obtain rfl : i' = i := Fin.ext h.1
        exact State.readFixed_writeFixed_same hs i' _
      · next h => exact s.readFixed_writeFixed_of_ne _ fun e => h ⟨congrArg Fin.val e, i.isLt⟩
    · rw [getFixed_of_outOfRange _ h', getFixed_of_outOfRange _ h', if_neg (by omega)]
  · rw [hset, if_neg fun h => hout h.2]

/-- `setErasable` changes no field but erasable memory. -/
theorem setErasable_eq (s : State) (b off v : Nat) :
    setErasable s b off v = { s with erasable := (setErasable s b off v).erasable } := by
  obtain ⟨b, off, -, -, hset⟩ | ⟨-, hset⟩ := setErasable_cases s b off v <;> rw [hset]
  rfl

/-- `setFixed` changes no field but fixed memory. -/
theorem setFixed_eq (s : State) (i v : Nat) : setFixed s i v = { s with fixed := (setFixed s i v).fixed } := by
  obtain ⟨i, -, hset⟩ | ⟨-, hset⟩ := setFixed_cases s i v <;> rw [hset]
  rfl

/-! ## The register-write port -/

/-- The register file as one vector, offset by offset (R31). -/
def regFile (s : State) : Vector Word 16 :=
  #v[s.A, s.L, s.Q, s.EB, s.FB, s.Z, s.BB, s.inp[0], s.inp[1], s.inp[2], s.inp[3], s.inp[4], s.inp[5], s.inp[6], s.inp[7],
    Word.plusZero]

/-- A register-file read is the vector's component at that offset (R31). -/
theorem regRead_eq_regFile (s : State) (o : Fin 16) : regRead s o = (regFile s)[o.val] := by
  fin_cases o <;> rfl

/-- An offset of the register file is a register's, a channel slot's, or the unmapped one (R30, R31). -/
theorem regOffset_cases (o : Fin 16) :
    o.val ≤ 6 ∨ (∃ k : Fin 8, o = ⟨7 + k.val, by omega⟩) ∨ o = 15 := by
  have := o.isLt
  by_cases h6 : o.val ≤ 6
  · exact .inl h6
  · by_cases h15 : o.val = 15
    · exact .inr (.inr (Fin.ext h15))
    · exact .inr (.inl ⟨⟨o.val - 7, by omega⟩, Fin.ext (by simp only; omega)⟩)

/-- A register write at an offset of a register replaces that component of the register file, and no output channel. -/
theorem regWrite_register (s : State) {o : Fin 16} (w : Word) (h : o.val ≤ 6) :
    regFile (regWrite s o w) = (regFile s).set o.val w ∧ (regWrite s o w).out = s.out := by
  have ho := o.isLt
  obtain ⟨n, hn⟩ := o
  interval_cases n <;> exact ⟨rfl, rfl⟩

/-- A register write at slot `k` writes output channel `k` (R29, R32). -/
theorem regWrite_slot (s : State) (k : Fin 8) (w : Word) :
    regWrite s ⟨7 + k.val, by omega⟩ w = s.setOut (slotChannel k) w := by
  fin_cases k <;> rfl

/-- A register write at offset 15 is ignored (R30, R32). -/
theorem regWrite_unmapped (s : State) (w : Word) : regWrite s 15 w = s := rfl

/-- A register write leaves the input channels, IR, the counter and both memories alone (R32). -/
theorem regWrite_frame (s : State) (o : Fin 16) (w : Word) :
    (regWrite s o w).inp = s.inp ∧ (regWrite s o w).IR = s.IR ∧ (regWrite s o w).cycles = s.cycles ∧
      (regWrite s o w).erasable = s.erasable ∧ (regWrite s o w).fixed = s.fixed := by
  fin_cases o <;> exact ⟨rfl, rfl, rfl, rfl, rfl⟩

/-- The register file after a register write: the written register, if it is one, has changed, and nothing else. -/
theorem regRead_regWrite (s : State) (o p : Fin 16) (w : Word) :
    regRead (regWrite s o w) p = if p = o ∧ o.val ≤ 6 then w else regRead s p := by
  obtain h6 | ⟨k, rfl⟩ | rfl := regOffset_cases o
  · simp only [regRead_eq_regFile, (regWrite_register s w h6).1, Vector.getElem_set, h6, and_true, Fin.ext_iff,
      @eq_comm _ o.val]
  · rw [regWrite_slot, if_neg (by simp only; omega)]
    rfl
  · rw [regWrite_unmapped, if_neg (by decide +revert)]

/-- The output channels after a register write: the written slot's channel, if it is a slot, has changed, and nothing
else. -/
theorem hostGetOutput_regWrite (s : State) (o : Fin 16) (w : Word) (k : Nat) :
    hostGetOutput (regWrite s o w) k = if o.val = 7 + k ∧ k < 8 then w else hostGetOutput s k := by
  obtain h6 | ⟨j, rfl⟩ | rfl := regOffset_cases o
  · rw [if_neg (by omega), hostGetOutput, (regWrite_register s w h6).2, hostGetOutput]
  · have := j.isLt
    rw [regWrite_slot]
    simp only [hostGetOutput, State.setOut_out, slotChannel]
    split
    · rw [Vector.getElem_set]
      exact if_congr (by omega) rfl rfl
    · rw [if_neg (by omega)]
  · rw [regWrite_unmapped, if_neg (by omega)]

/-- The bank selected by a value written to EB, half by half (R64). -/
theorem ebank_ofNat (eb : Nat) {addr : Nat} (h : addr ≤ 0o1777) :
    ebank (BitVec.ofNat 15 eb) addr = if (if addr ≤ 0o777 then eb.testBit 0 else eb.testBit 1) then 1 else 0 := by
  by_cases hlow : addr ≤ 0o777
  · rw [ebank_of_lower _ hlow, if_pos hlow, BitVec.getLsbD_ofNat]
    rfl
  · rw [ebank_of_upper _ (by omega) h, if_neg hlow, BitVec.getLsbD_ofNat]
    rfl

/-! ## The invariant across the host's operations -/

/-- A load of whole words keeps fixed memory canonical (R80). -/
theorem loadWords_wf (image : List (BitVec 8)) (j : Nat) {m : Memory} (hm : m.wf Config.fixedWords = true) :
    (loadWords image j m).wf Config.fixedWords = true := by
  induction image, j, m using loadWords.induct with
  | case1 hi lo rest j m hj ih =>
    rw [loadWords, if_pos hj]
    exact ih (Memory.wf_write _ hm hj)
  | case2 hi lo rest j m hj => rwa [loadWords, if_neg hj]
  | case3 | case4 => exact hm

/-- Every host operation completes and keeps the invariant (R232). -/
theorem hostOp_keeps_inv (op : HostOp) {s : State} (hs : s.Inv) : ∃ t, hostOp op s = .next t ∧ t.1.Inv := by
  cases op with
  | reset => exact ⟨_, rfl, hs⟩
  | step =>
    obtain ⟨t, ht⟩ := step_completes s
    exact ⟨(t, .nothing), by rw [hostOp, ht], hs.step ht⟩
  | write addr v => exact ⟨_, rfl, hs.memWrite addr _⟩
  | loadRom file =>
    cases file with
    | cannotOpen => exact ⟨_, rfl, hs⟩
    | bytes image => exact ⟨_, rfl, hs.1, loadWords_wf image 0 hs.2⟩
  | setErasable b off v =>
    refine ⟨_, rfl, ?_⟩
    obtain ⟨b, off, -, -, hset⟩ | ⟨-, hset⟩ := setErasable_cases s b off v <;> simp only [hset]
    · exact hs.writeErasable b off _
    · exact hs
  | setFixed i v =>
    refine ⟨_, rfl, ?_⟩
    obtain ⟨i, -, hset⟩ | ⟨-, hset⟩ := setFixed_cases s i v <;> simp only [hset]
    · exact hs.writeFixed i _
    · exact hs
  | regWrite o v =>
    obtain ⟨-, -, -, hera, hfix⟩ := regWrite_frame s o (aluNormalize v)
    exact ⟨_, rfl, (State.inv_congr hera hfix).mpr hs⟩
  | setInput k v =>
    refine ⟨_, rfl, ?_⟩
    unfold hostSetInput
    split
    · exact hs
    · exact hs
  | read | getErasable | getFixed | getOutput | observe => exact ⟨_, rfl, hs⟩

/-! ## The obligations -/

/-- Settles O46, by induction on the list of operations. -/
theorem hostOperationsKeepTheInvariant : Obligations.HostOperationsKeepTheInvariant := by
  intro ops
  induction ops with
  | nil => exact fun s hs => ⟨s, rfl, hs⟩
  | cons op ops ih =>
    intro s hs
    obtain ⟨u, hu, hui⟩ := hostOp_keeps_inv op hs
    obtain ⟨t, ht, hti⟩ := ih u.1 hui
    exact ⟨t, by rw [hostRun, hu]; exact ht, hti⟩

/-- Settles O45: both memories are empty after reset. -/
theorem resetMeetsTheInvariant : Obligations.ResetMeetsTheInvariant :=
  ⟨Memory.wf_nil _, Memory.wf_nil _⟩

/-- Settles O47: the fields are 0 as `State.reset` writes them, and empty arrays read as unlisted everywhere. -/
theorem powerOnIsAllZero : Obligations.PowerOnIsAllZero :=
  ⟨rfl, rfl, rfl, rfl, rfl, rfl, rfl, rfl, rfl, by decide, fun _ _ => Memory.read_nil _, fun _ => Memory.read_nil _⟩

/-- Settles O48: the entry fetch is at address 0 with EB = 0. -/
theorem hostResetKeepsMemory : Obligations.HostResetKeepsMemory := by
  intro s
  have hbank : ebank 0 0 = 0 := ebank_of_lower 0 (by decide)
  have hentry : fetch (hostReset s) 0 = s.readErasable (ebank 0 0) 0 := fetch_of_erasable (hostReset s) (by decide)
  exact ⟨rfl, fun _ _ => rfl, fun _ => rfl, by rw [← hbank]; exact hentry⟩

/-- Settles O49: reads and outputs by what a register write leaves in the register file and in the output channels, the rest
by its frame. -/
theorem regWriteReachesOneRegisterOrOutput : Obligations.RegWriteReachesOneRegisterOrOutput := by
  intro s o v
  refine ⟨fun h => ?_, fun p h => ?_, fun k h => ?_, fun k h => ?_, fun h => ?_, regWrite_frame s o _⟩
  · rw [hostRegWrite, regRead_regWrite, if_pos ⟨rfl, h⟩, aluNormalize]
  · rw [hostRegWrite, regRead_regWrite, if_neg fun e => h.elim (absurd e.1) (by omega)]
  · rw [hostRegWrite, hostGetOutput_regWrite, if_pos ⟨h, k.isLt⟩, aluNormalize]
  · rw [hostRegWrite, hostGetOutput_regWrite, if_neg fun e => h e.1]
  · obtain rfl : o = 15 := Fin.ext h
    exact regWrite_unmapped s _

/-- Settles O50, by whether the index names a channel. -/
theorem hostSetsOneInputChannel : Obligations.HostSetsOneInputChannel := by
  intro s k v
  by_cases hk : k < 16
  · have hset : hostSetInput s k v = s.setInp ⟨k, hk⟩ (BitVec.ofNat 15 v) := dif_pos hk
    refine ⟨fun j => ?_, by rw [hset]; rfl, fun h => by omega, fun h => dif_pos h⟩
    rw [hset, State.setInp_inp, Vector.getElem_set]
    exact if_congr eq_comm rfl rfl
  · have hset : hostSetInput s k v = s := dif_neg hk
    refine ⟨fun j => ?_, by rw [hset], fun _ => ⟨hset, dif_neg hk⟩, fun h => absurd h hk⟩
    rw [hset, if_neg (by omega)]

/-- Settles O51, by the laws of the accessors. -/
theorem bankAccessorsBypassTheDecode : Obligations.BankAccessorsBypassTheDecode := fun s b off i v hs =>
  ⟨getErasable_setErasable hs b off v, getFixed_setFixed hs i v,
    fun h => ⟨getErasable_of_outOfRange s h, setErasable_of_outOfRange s v h⟩,
    fun h => ⟨getFixed_of_outOfRange s h, setFixed_of_outOfRange s v h⟩, setErasable_eq s b off v, setFixed_eq s i v⟩

/-- Settles O53: the read sees the bank that EB selects, and that bank's cell holds the word its own write stored. -/
theorem erasableBanksAreIsolated : Obligations.ErasableBanksAreIsolated := by
  intro s off v0 v1 eb hs h1 h2
  have hset0 : setErasable s 0 off v0 = s.writeErasable 0 ⟨off, by omega⟩ (BitVec.ofNat 15 v0) :=
    setErasable_of_inRange s 0 ⟨off, by omega⟩ v0
  have hset1 : ∀ t, setErasable t 1 off v1 = t.writeErasable 1 ⟨off, by omega⟩ (BitVec.ofNat 15 v1) := fun t =>
    setErasable_of_inRange t 1 ⟨off, by omega⟩ v1
  have hread : ∀ t : State, hostRead (hostRegWrite t 3 eb) off =
      t.readErasable (ebank (BitVec.ofNat 15 eb) off) ⟨off, by omega⟩ := fun t =>
    (fetch_eq_memRead _ h1).symm.trans (fetch_of_erasable (hostRegWrite t 3 eb) h2)
  rw [hread, ebank_ofNat eb h2, hset1, hset0]
  cases (if off ≤ 0o777 then eb.testBit 0 else eb.testBit 1) with
  | true => exact State.readErasable_writeErasable_same (hs.writeErasable 0 _ _) 1 _ _
  | false =>
    exact (State.readErasable_writeErasable_of_ne _ _ (by simp)).trans
      (State.readErasable_writeErasable_same hs 0 _ _)

/-- Settles O54: the unified write is dropped there, the fetch reads the cell `setErasable` wrote, and the data read is of
the register file. -/
theorem codeBelowOctalTwentyIsPlacedBySetErasable : Obligations.CodeBelowOctalTwentyIsPlacedBySetErasable := by
  intro s n v hs hn
  have hset : setErasable s (if s.EB.getLsbD 0 then 1 else 0) n v =
      s.writeErasable (if s.EB.getLsbD 0 then 1 else 0) ⟨n, by omega⟩ (BitVec.ofNat 15 v) := by
    split
    · exact setErasable_of_inRange s 1 ⟨n, by omega⟩ v
    · exact setErasable_of_inRange s 0 ⟨n, by omega⟩ v
  refine ⟨memWrite_of_outside s _ (.inl (by omega)), ?_, ?_⟩
  · rw [fetch_of_erasable _ (by omega), ebank_of_lower _ (by omega), hset]
    exact State.readErasable_writeErasable_same hs _ _ _
  · rw [memRead_of_regFile _ hn, hset]
    rfl

end Sys2Proof.Machine
end

section
/-! PROOF. The statements about negate and add (spec/40_word_arithmetic.md section 3) and about CCS, which tests a negated
word (spec/44_count_compare_skip.md): each from the spec lemmas in Laws/Alu, as arithmetic on naturals. -/

namespace Sys2Proof.Machine

/-! ## negate -/

theorem aluNegate_aluNegate (w : Word) : aluNegate (aluNegate w) = w := by
  rw [aluNegate_eq_not, aluNegate_eq_not, BitVec.not_not]

/-- negate flips the signed value (R124, laws of negate). -/
theorem val_aluNegate (w : Word) : val (aluNegate w) = -val w := by
  have hw := w.isLt
  rw [val_eq, val_eq, aluNegate_toNat]
  split_ifs <;> omega

theorem isNegative_aluNegate (w : Word) : isNegative (aluNegate w) = !isNegative w := by
  have hw := w.isLt
  rw [isNegative_eq, isNegative_eq, aluNegate_toNat, ← decide_not, decide_eq_decide]
  omega

/-- The two patterns of zero, and no other, have the value 0 (R121). -/
theorem val_eq_zero_iff (w : Word) : val w = 0 ↔ w = Word.plusZero ∨ w = Word.minusZero := by
  have hw := w.isLt
  rw [val_eq, ← BitVec.toNat_inj, ← BitVec.toNat_inj, BitVec.toNat_ofNat, BitVec.toNat_ofNat]
  split_ifs <;> omega

/-! ## add -/

theorem aluAdd_comm (a b : Word) : aluAdd a b = aluAdd b a := by
  simp only [aluAdd, Nat.add_comm]

/-- Bracketing does not matter: each sum is the natural sum less 2^15 - 1 for every carry (R128). -/
theorem aluAdd_assoc (a b c : Word) : aluAdd (aluAdd a b) c = aluAdd a (aluAdd b c) := by
  have ha := a.isLt
  have hb := b.isLt
  have hc := c.isLt
  apply BitVec.eq_of_toNat_eq
  simp only [aluAdd_toNat]
  split_ifs <;> omega

/-- The sum is congruent to the natural sum modulo 2^15 - 1 (R126). -/
theorem aluAdd_toNat_mod (a b : Word) : (aluAdd a b).toNat % (2 ^ 15 - 1) = (a.toNat + b.toNat) % (2 ^ 15 - 1) := by
  rw [aluAdd_toNat]
  split <;> omega

/-- A signed sum in range is exact, and one outside is off by 2^15 - 1 towards zero (R126, R130). -/
theorem val_aluAdd (a b : Word) :
    val (aluAdd a b) =
      if 16383 < val a + val b then val a + val b - 32767
      else if val a + val b < -16383 then val a + val b + 32767
      else val a + val b := by
  have ha := a.isLt
  have hb := b.isLt
  simp only [val_eq, aluAdd_toNat]
  split_ifs <;> omega

/-- A positive value has a clear sign bit. -/
theorem isNegative_of_val_pos {w : Word} (h : 0 < val w) : isNegative w = false := by
  have hw := w.isLt
  rw [val_eq] at h
  rw [isNegative_eq, decide_eq_false_iff_not]
  split_ifs at h <;> omega

/-- A negative value has a set sign bit. -/
theorem isNegative_of_val_neg {w : Word} (h : val w < 0) : isNegative w = true := by
  rw [val_eq] at h
  rw [isNegative_eq, decide_eq_true_iff]
  split_ifs at h <;> omega

/-- A value has at most 14 bits of magnitude (R121). -/
theorem val_bounds (w : Word) : -16383 ≤ val w ∧ val w ≤ 16383 := by
  have hw := w.isLt
  rw [val_eq]
  split_ifs <;> omega

/-- Two words sum to +0 only if both are +0: any other zero sum carries around to -0 (R127). -/
theorem aluAdd_eq_plusZero_iff (a b : Word) : aluAdd a b = Word.plusZero ↔ a = Word.plusZero ∧ b = Word.plusZero := by
  rw [← BitVec.toNat_inj, ← BitVec.toNat_inj, ← BitVec.toNat_inj, aluAdd_toNat, BitVec.toNat_ofNat]
  split_ifs <;> omega

/-- Every other sum that is arithmetically zero is -0 (R127, R129). -/
theorem aluAdd_eq_minusZero {a b : Word} (h : val a + val b = 0) (hne : ¬(a = Word.plusZero ∧ b = Word.plusZero)) :
    aluAdd a b = Word.minusZero := by
  have hval : val (aluAdd a b) = 0 := by
    rw [val_aluAdd, if_neg (by omega), if_neg (by omega), h]
  exact ((val_eq_zero_iff _).mp hval).resolve_left fun hp => hne ((aluAdd_eq_plusZero_iff a b).mp hp)

/-- -0 is an identity on every word but +0 (R128). -/
theorem aluAdd_minusZero_left {x : Word} (h : x ≠ Word.plusZero) : aluAdd Word.minusZero x = x := by
  have hpos : x.toNat ≠ 0 := fun e => h (BitVec.eq_of_toNat_eq e)
  apply BitVec.eq_of_toNat_eq
  rw [aluAdd_toNat, BitVec.toNat_ofNat]
  split <;> omega

/-- +0 is an identity (R128). -/
theorem aluAdd_plusZero_left (x : Word) : aluAdd Word.plusZero x = x := by
  have hx := x.isLt
  apply BitVec.eq_of_toNat_eq
  rw [aluAdd_toNat, BitVec.toNat_ofNat]
  split <;> omega

/-! ## CCS -/

/-- R191, the decoder's half. -/
theorem decode_ccs (a : AddrField) : decode ((4 : Opcode) ++ a) = .ccs a := decode_append 4 a

/-- The class of a word is the sign of its value, with both zeros in the middle (R190). -/
theorem ccsClass_of_val_pos {w : Word} (h : 0 < val w) : ccsClass w = .positive := by
  have hzero : ¬(w = Word.plusZero ∨ w = Word.minusZero) := fun e => by have := (val_eq_zero_iff w).mpr e; omega
  rw [ccsClass, if_neg hzero, isNegative_of_val_pos h]
  rfl

theorem ccsClass_of_val_zero {w : Word} (h : val w = 0) : ccsClass w = .zero := if_pos ((val_eq_zero_iff w).mp h)

theorem ccsClass_of_val_neg {w : Word} (h : val w < 0) : ccsClass w = .negative := by
  have hzero : ¬(w = Word.plusZero ∨ w = Word.minusZero) := fun e => by have := (val_eq_zero_iff w).mpr e; omega
  rw [ccsClass, if_neg hzero, isNegative_of_val_neg h]
  rfl

/-! ## The obligations -/

/-- Settles O5: the congruence and the value of the sum, whose sign outside the range is the wrong one because the operands'
values are bounded. -/
theorem addIsExactInRangeAndWrapsOutside : Obligations.AddIsExactInRangeAndWrapsOutside := by
  intro a b
  have hval := val_aluAdd a b
  have ha := val_bounds a
  have hb := val_bounds b
  refine ⟨aluAdd_toNat_mod a b, fun h => ?inRange, fun h => ?above, fun h => ?below⟩
  case inRange => rw [hval, if_neg (by omega), if_neg (by omega)]
  case above =>
    rw [if_pos h] at hval
    exact ⟨hval, isNegative_of_val_neg (by omega)⟩
  case below =>
    rw [if_neg (by omega), if_pos h] at hval
    exact ⟨hval, isNegative_of_val_pos (by omega)⟩

/-- Settles O6: a word and its negation sum to zero and are not both +0. -/
theorem addReturnsPlusZeroOnlyFromPlusZeros : Obligations.AddReturnsPlusZeroOnlyFromPlusZeros := by
  refine ⟨aluAdd_eq_plusZero_iff, fun a b => aluAdd_eq_minusZero, fun x => aluAdd_eq_minusZero ?_ ?_⟩
  · rw [val_aluNegate]
    omega
  · rintro ⟨hneg, rfl⟩
    exact absurd hneg (by decide)

/-- Settles O7, by the laws of add. -/
theorem addCommutesAndAssociates : Obligations.AddCommutesAndAssociates :=
  ⟨aluAdd_comm, fun x => (aluAdd_plusZero_left x).trans (aluNormalize_word x).symm, fun _ => aluAdd_minusZero_left,
    by decide, aluAdd_assoc⟩

/-- Settles O4, by the three laws of negate. -/
theorem negateFlipsValueAndSign : Obligations.NegateFlipsValueAndSign := fun w =>
  ⟨aluNegate_aluNegate w, val_aluNegate w, isNegative_aluNegate w⟩

/-- Settles O26: the class of the new A is the opposite sign of the operand's value. -/
theorem ccsSkipsByTheOperandsSign : Obligations.CcsSkipsByTheOperandsSign := by
  intro a s
  have hval := val_aluNegate (memRead s a.toNat)
  refine ⟨_, exec_ccs a s, hval, fun h => ?neg, fun h => ?zero, fun h => ?pos, fun h => ?plusZero, fun h => ?minusZero⟩
  case neg => rw [State.setZ_Z, ccsClass_of_val_pos (by omega), skipOf]
  case zero => rw [State.setZ_Z, ccsClass_of_val_zero (by omega), skipOf]
  case pos => rw [State.setZ_Z, ccsClass_of_val_neg (by omega), skipOf]
  case plusZero => rw [State.setZ_A, State.setA_A, h]; decide
  case minusZero => rw [State.setZ_A, State.setA_A, h]; decide

/-- Settles O25, by the decoder and the handler on a CCS. -/
theorem ccsNegatesAndSkips : Obligations.CcsNegatesAndSkips := fun a s => ⟨decode_ccs a, exec_ccs a s⟩

end Sys2Proof.Machine
end

section
/-! PROOF. The statements about INDEX (spec/45_index.md): the address-field addition as arithmetic on naturals, the rewritten
word as its two fields, the frame of the one data write, and the fetch of the rewritten word. -/

namespace Sys2Proof.Machine

/-! ## The address-field addition -/

/-- The new field is the natural sum, less 2^15 - 1 where it carries out of bit 14, cut to 12 bits (R125, R201). -/
theorem indexField_toNat_eq (f : AddrField) (off : Word) :
    (indexField f off).toNat =
      (if f.toNat + off.toNat < 32768 then f.toNat + off.toNat else f.toNat + off.toNat - 32767) % 4096 := by
  rw [indexField_toNat, aluAdd_toNat, BitVec.toNat_setWidth_of_le (by decide)]

/-- The field of a plain binary addition, cut to 12 bits. -/
theorem plainField_toNat (f : AddrField) (off : Word) :
    ((f.setWidth 15 + off).setWidth 12).toNat = (f.toNat + off.toNat) % 4096 := by
  rw [BitVec.toNat_setWidth, BitVec.toNat_add, BitVec.toNat_setWidth_of_le (by decide)]
  omega

/-- The field one above, modulo 2^12. -/
theorem addrField_add_one_toNat (f : AddrField) : (f + 1).toNat = (f.toNat + 1) % 4096 := BitVec.toNat_add f 1

/-- A sum that does not carry is the plain sum (R201). -/
theorem indexField_toNat_of_no_carry {f : AddrField} {off : Word} (h : f.toNat + off.toNat < 32768) :
    (indexField f off).toNat = (f.toNat + off.toNat) % 4096 := by
  rw [indexField_toNat_eq, if_pos h]

/-- A sum that carries takes the carry back in (R201). -/
theorem indexField_toNat_of_carry {f : AddrField} {off : Word} (h : 32768 ≤ f.toNat + off.toNat) :
    (indexField f off).toNat = (f.toNat + off.toNat - 32767) % 4096 := by
  rw [indexField_toNat_eq, if_neg (by omega)]

/-! ## The rewritten word -/

/-- The rewritten word keeps the opcode field and takes the new address field (R200). -/
theorem indexedWord_eq (n off : Word) : indexedWord n off = opField n ++ indexField (addrField n) off := by
  have hfield : (indexField (addrField n) off).setWidth 15 = (0 : Opcode) ++ indexField (addrField n) off :=
    BitVec.setWidth_eq_append (by decide)
  have hop : n &&& 0o70000#15 = opField n ++ (0 : AddrField) := and_opcodeMask n
  rw [indexedWord, hop, ← addrField_eq_setWidth, hfield, BitVec.or_append]
  congr 1
  · exact BitVec.or_zero
  · exact BitVec.zero_or

/-- R200, the decoder's half. -/
theorem decode_index (a : AddrField) : decode ((5 : Opcode) ++ a) = .index a := decode_append 5 a

/-! ## The step -/

/-- The increment is plain binary addition (R144). -/
theorem aluNormalize_succ (w : Word) : aluNormalize (w.toNat + 1) = w + 1 := by
  apply BitVec.eq_of_toNat_eq
  rw [aluNormalize_toNat, BitVec.toNat_add]
  rfl

/-- A step that fetches an INDEX writes the rewritten word back through the data path, in a state that an instruction
cannot tell from the one before but for its incremented Z (R141, R200). -/
theorem step_of_index {s : State} {a : AddrField} (hw : fetch s s.Z.toNat = (5 : Opcode) ++ a) :
    ∃ u, SameVisible { s with Z := s.Z + 1 } u ∧
      step s = .next (countPhase
        (memWrite u u.Z.toNat (indexedWord (memRead u u.Z.toNat) (memRead u a.toNat)))) := by
  refine ⟨incrPhase (recordPhase (fetch s s.Z.toNat) s), ?_, step_of_exec ?_⟩
  · exact ⟨rfl, rfl, rfl, rfl, rfl, aluNormalize_succ s.Z, rfl, fun _ => rfl, rfl, rfl⟩
  · rw [hw, decode_index, exec_index]

/-! ## The obligations -/

/-- Settles O28: a positive offset never carries, a negative one carries exactly where the field is larger. -/
theorem indexFieldArithmetic : Obligations.IndexFieldArithmetic := by
  intro f off
  have hf := f.isLt
  have hminus : (Word.minusZero).toNat = 32767 := rfl
  refine ⟨fun h => ?positive, fun h => ?minusZero, by decide, fun k h1 h2 hk => ⟨fun h => ?larger, fun h => ?cancels,
    fun h => ?smaller⟩⟩
  case positive => exact indexField_toNat_of_no_carry (by omega)
  case minusZero =>
    have hpos : f.toNat ≠ 0 := fun e => h (BitVec.eq_of_toNat_eq e)
    apply BitVec.eq_of_toNat_eq
    rw [indexField_toNat_of_carry (by omega)]
    omega
  case larger => rw [indexField_toNat_of_carry (by omega)]; omega
  case cancels => rw [indexField_toNat_of_no_carry (by omega)]; omega
  case smaller => rw [indexField_toNat_of_no_carry (by omega)]; omega

/-- Settles O29: with a carry the two sums differ by the one that is carried around. -/
theorem indexNeedsTheEndAroundCarry : Obligations.IndexNeedsTheEndAroundCarry := by
  intro f off
  refine ⟨fun h => ?_, fun h => ?_⟩
  · exact BitVec.eq_of_toNat_eq ((indexField_toNat_of_no_carry h).trans (plainField_toNat f off).symm)
  · have hsucc : indexField f off = (f.setWidth 15 + off).setWidth 12 + 1 := by
      apply BitVec.eq_of_toNat_eq
      rw [indexField_toNat_of_carry h, addrField_add_one_toNat, plainField_toNat]
      omega
    refine ⟨hsucc, fun heq => ?_⟩
    have hne := congrArg BitVec.toNat (hsucc.symm.trans heq)
    rw [addrField_add_one_toNat] at hne
    omega

/-- Settles O27: the handler's word is the opcode field before the new address field. -/
theorem indexRewritesTheNextWord : Obligations.IndexRewritesTheNextWord := by
  intro a s
  refine ⟨decode_index a, ?_⟩
  rw [exec_index, indexedWord_eq, indexField]

/-- Settles O30, by the frame of the one data write, which is dropped outside 0o20..0o1777. -/
theorem indexChangesOnlyTheNextWord : Obligations.IndexChangesOnlyTheNextWord := fun a s =>
  ⟨_, exec_index a s, memWrite_eq s _ _, sameCellsBut_memWrite s _ _, fun _ => memRead_memWrite_of_ne s _,
    fun h => memWrite_of_outside s _ (by omega)⟩

/-- Settles O31: where the write lands, the next fetch is the data read that returns the rewritten word; where it is dropped,
the next fetch is the fetch before it. -/
theorem indexActsOnTheVeryNextStep : Obligations.IndexActsOnTheVeryNextStep := by
  intro a s hs hw
  obtain ⟨u, hvis, hstep⟩ := step_of_index hw
  have ⟨hA, _, _, _, _, hZ, _, _, hera, hfix⟩ := hvis
  have hu : u.Inv := (State.inv_congr hera hfix).mpr hs
  have hfetch : ∀ n, fetch u n = fetch s n := fun n =>
    (hvis.fetch n).trans (fetch_congr (s := s) (t := { s with Z := s.Z + 1 }) rfl rfl rfl rfl n)
  have hcount : ∀ (t : State) n, fetch (countPhase t) n = fetch t n := fun t n => fetch_congr rfl rfl rfl rfl n
  refine ⟨_, hstep, ?_⟩
  simp only [countPhase_Z, countPhase_A, memWrite_Z, memWrite_A, hcount]
  refine ⟨hZ, hA, fun h1 h2 => ?lands, fun h => ?dropped⟩
  case lands =>
    have hoff : memRead { s with Z := u.Z } a.toNat = memRead u a.toNat := by rw [hZ]; exact (hvis.memRead _).symm
    rw [fetch_eq_memRead _ h1, memRead_memWrite_same hu _ h1 h2, indexedWord_eq, ← fetch_eq_memRead u h1, hfetch,
      hoff]
  case dropped => rw [memWrite_of_outside u _ (by omega), hfetch]

end Sys2Proof.Machine
end

section
/-! PROOF. The statements about A and Z across a step (spec/41_step_and_dispatch.md section 1; spec/10_state.md section 2):
which handlers write them, and what the step then leaves in them. -/

namespace Sys2Proof.Machine

/-! ## What the handlers leave in A and Z -/

/-- Only XCH, CA and CCS write A (R22). -/
theorem exec_A_of_not_writer {i : Instr} {s t : State} (h : exec i s = .next t)
    (hi : ¬∃ a, i = .xch a ∨ i = .ca a ∨ i = .ccs a) : t.A = s.A := by
  cases i with
  | tc a => cases h; rfl
  | xch a => exact absurd ⟨a, .inl rfl⟩ hi
  | ts a => cases h; rw [memWrite_A]
  | ca a => exact absurd ⟨a, .inr (.inl rfl)⟩ hi
  | ccs a => exact absurd ⟨a, .inr (.inr rfl)⟩ hi
  | index a => cases h; rw [memWrite_A]
  | op6 a => cases h; rfl
  | op7 a => cases h; rfl

/-- Only TC and CCS write Z (R27). -/
theorem exec_Z_of_not_writer {i : Instr} {s t : State} (h : exec i s = .next t)
    (hi : ¬∃ a, i = .tc a ∨ i = .ccs a) : t.Z = s.Z := by
  cases i with
  | tc a => exact absurd ⟨a, .inl rfl⟩ hi
  | xch a => cases h; rw [State.setA_Z, memWrite_Z]
  | ts a => cases h; rw [memWrite_Z]
  | ca a => cases h; rfl
  | ccs a => exact absurd ⟨a, .inr rfl⟩ hi
  | index a => cases h; rw [memWrite_Z]
  | op6 a => cases h; rfl
  | op7 a => cases h; rfl

/-- CCS skips 1, 2 or 3 positions (R190). -/
theorem skipOf_cases (c : CcsClass) : skipOf c = 1 ∨ skipOf c = 2 ∨ skipOf c = 3 := by
  cases c with
  | positive => exact .inl rfl
  | zero => exact .inr (.inl rfl)
  | negative => exact .inr (.inr rfl)

/-! ## What the step leaves in A and Z -/

/-- A step whose instruction does not write A keeps it. -/
theorem step_A_of_not_writer {s t : State} (h : step s = .next t)
    (hi : ¬∃ a, decode (fetch s s.Z.toNat) = .xch a ∨ decode (fetch s s.Z.toNat) = .ca a ∨
      decode (fetch s s.Z.toNat) = .ccs a) : t.A = s.A := by
  obtain ⟨u, hu, rfl⟩ := step_cases h
  exact (exec_A_of_not_writer hu hi :)

/-- A step whose instruction does not write Z increments it (R144). -/
theorem step_Z_of_not_writer {s t : State} (h : step s = .next t)
    (hi : ¬∃ a, decode (fetch s s.Z.toNat) = .tc a ∨ decode (fetch s s.Z.toNat) = .ccs a) : t.Z = s.Z + 1 := by
  obtain ⟨u, hu, rfl⟩ := step_cases h
  exact (exec_Z_of_not_writer hu hi).trans (aluNormalize_succ s.Z)

/-- A step on a TC leaves its target in Z (R160). -/
theorem step_Z_of_tc {s t : State} {a : AddrField} (h : step s = .next t) (hi : decode (fetch s s.Z.toNat) = .tc a) :
    t.Z = a.setWidth 15 := by
  obtain ⟨u, hu, rfl⟩ := step_cases h
  rw [hi, exec_tc] at hu
  cases hu
  exact aluNormalize_addrField a

/-- A step on a CCS leaves in Z the increment and one of the three skips past it (R144, R191). -/
theorem step_Z_of_ccs {s t : State} {a : AddrField} (h : step s = .next t) (hi : decode (fetch s s.Z.toNat) = .ccs a) :
    t.Z = s.Z + 2 ∨ t.Z = s.Z + 3 ∨ t.Z = s.Z + 4 := by
  obtain ⟨u, hu, rfl⟩ := step_cases h
  rw [hi, exec_ccs] at hu
  cases hu
  simp only [countPhase_Z, State.setZ_Z, incrPhase_Z, recordPhase_Z, aluNormalize_succ]
  generalize ccsClass _ = c
  obtain hc | hc | hc := skipOf_cases c <;> rw [hc, BitVec.add_assoc]
  · exact .inl rfl
  · exact .inr (.inl rfl)
  · exact .inr (.inr rfl)

/-! ## The obligations -/

/-- Settles O16, by the opcode fetched. -/
theorem stepLeavesZByOpcode : Obligations.StepLeavesZByOpcode := by
  intro s
  obtain ⟨t, ht⟩ := step_completes s
  refine ⟨t, ht, ?_⟩
  cases hi : decode (fetch s s.Z.toNat) with
  | tc a => exact step_Z_of_tc ht hi
  | ccs a => exact step_Z_of_ccs ht hi
  | xch | ts | ca | index | op6 | op7 => exact step_Z_of_not_writer ht (by simp [hi])

/-- Settles O41: a step whose instruction does not write A or Z leaves it as it was or incremented. -/
theorem onlyTheNamedInstructionsWriteAAndZ : Obligations.OnlyTheNamedInstructionsWriteAAndZ := by
  intro s
  obtain ⟨t, ht⟩ := step_completes s
  exact ⟨t, ht, fun hne => not_not.mp fun hi => hne (step_A_of_not_writer ht hi),
    fun hne => not_not.mp fun hi => hne (step_Z_of_not_writer ht hi)⟩

/-- Settles O17: the fetch reads nothing there, so its word is that of TC 0. -/
theorem stepAboveTheDecodedRangeRunsTcZero : Obligations.StepAboveTheDecodedRangeRunsTcZero := by
  intro s h
  have hw : fetch s s.Z.toNat = (0 : Opcode) ++ (0 : AddrField) := by
    rw [fetch, fetchResolve_eq_resolve s (by omega), resolve_of_undecoded s h]
    rfl
  exact step_of_tc hw

end Sys2Proof.Machine
end
